-- ==== Sys2Proof/Word.lean ====
section
/-! DEFINITION. The sizes of the things the hardware holds (spec 00_scope.md R3 and section 6), as types.
Every value is unsigned. -/

namespace Sys2Proof

/-- A byte of memory, and the content of a general register (R3, R6). -/
abbrev Byte := BitVec 8

/-- An instruction word, the program counter, a call-stack entry, the fault word (R3, R9, R12, R16). -/
abbrev Word := BitVec 16

/-- The address field `nnn` of CALL: 12 bits, 0 to 4095 (R35, R37). -/
abbrev Target := BitVec 12

/-- A register index: a number below 16, so no index is ever out of range (R6, U3). -/
abbrev RegIdx := Fin 16

/-- The stack pointer: the 17 values 0 to 16 and no other (R13, decision D2). -/
abbrev Depth := Fin 17

end Sys2Proof
end

