-- ==== Sys2Proof/Config.lean ====
section
/-! DEFINITION. The implementation parameters of spec 00_scope.md R3. They are fixed numbers of the hardware, not options.
The spec leaves no value open (00_scope.md section 5: "nothing is a draw, the machine is deterministic"), so there is no
free value and no oracle here. -/

namespace Sys2Proof.Config

/-- Bytes of memory: addresses 0 to 4095 (R3, R21). -/
abbrev memSize : Nat := 4096

/-- Entries of the call stack (R3, R12). -/
abbrev stackDepth : Nat := 16

/-- The register that is the carry flag (R3, R7). -/
abbrev flagReg : RegIdx := 15

/-- Bytes of an instruction, and so the advance of the program counter (R3, R34, R44). -/
abbrev instrBytes : Word := 2

/-- The reset value of the program counter, where execution starts (R3, R19, R27). -/
abbrev entryPoint : Word := 0

end Sys2Proof.Config
end

