-- ==== Sys2Proof/Machine/State.lean ====
section
/-! DEFINITION. The state of the CORE, the closed list of spec 10_state.md R17, as plain data; its reset value; and the
reasons the model stops. -/

namespace Sys2Proof.Machine

/-- Memory as (address, byte) pairs, addresses strictly rising, no pair equal to what an unlisted address reads as
(`Memory.wf` in Ops.lean). -/
structure Memory where
  cells : List Host.Cell
deriving DecidableEq, Repr

/-- `status` (R15). -/
inductive RunStatus where
  /-- The CORE takes steps. -/
  | running
  /-- HALT was executed; the run ended normally. -/
  | halted
  /-- A fault ended the run. -/
  | faulted
deriving DecidableEq, Repr

/-- `fault_kind` (R16, 60_exceptions.md R60). -/
inductive FaultKind where
  | none
  | unimplementedInstruction
  | stackOverflow
  | stackUnderflow
  | outOfBoundsFetch
deriving DecidableEq, Repr

/-- The whole state (R17). -/
structure State where
  /-- `x[0]` to `x[15]`; `x[15]` is the carry flag (R6, R7). -/
  x         : Vector Byte 16
  /-- The address of the next instruction to fetch (R9). -/
  pc        : Word
  /-- `stack[0]` to `stack[15]`, return addresses (R12). -/
  stack     : Vector Word 16
  /-- How many return addresses are outstanding (R13). -/
  sp        : Depth
  /-- `mem[0]` to `mem[4095]` (R14). -/
  mem       : Memory
  status    : RunStatus
  faultKind : FaultKind
  faultWord : Word
deriving DecidableEq, Repr

/-- Every element zero, `fault_kind` none (R19); RUNNING, the value `status` has from the moment the run starts (R15, R19,
R74). DESIGN CHOICE (log 3): the time between reset and the start is not told apart by `status`. Safe. -/
def State.reset : State where
  x         := Vector.replicate 16 0
  pc        := Config.entryPoint
  stack     := Vector.replicate 16 0
  sp        := 0
  mem       := ⟨[]⟩
  status    := .running
  faultKind := .none
  faultWord := 0

/-- Why a step does not exist. A fault of the HARDWARE (R60) is none of these: it is a next state with the fault recorded
(R65, log 2). -/
inductive Fault where
  /-- Raised by `step` when `status` is HALTED: no step exists there (R42, U10). DESIGN CHOICE (log 1). Safe: the hardware
  does nothing there either. -/
  | noStepWhenHalted
  /-- Raised by `step` when `status` is FAULTED: no step exists there (R42, R66, U10). DESIGN CHOICE (log 1). Safe: the
  hardware does nothing there either. -/
  | noStepWhenFaulted
deriving DecidableEq, Repr

/-- What the model gives no meaning. No instruction and no step answers one of these. -/
inductive Refusal where
  /-- An instruction with no meaning yet; no arm of `exec` is in this case. Safe. -/
  | notModelled (mnemonic : String)
  /-- Raised by the host operation `seed` in a state that is no launch state: the host has no move during or after a run
  (R73, R74, U11). Safe: a claim says nothing of a disturbed run. -/
  | hostMoveOutsideSeeding
  /-- Raised by the host operation `seed` for a block that leaves addresses 0 to 4095: the loader, outside the CORE,
  refuses it (R73, U12, decision D15, log 7). Safe: a claim says nothing of a refused load. -/
  | seedOutOfRange
deriving DecidableEq, Repr

end Sys2Proof.Machine
end

