-- ==== Sys2Proof/Machine/Ops.lean ====
section
/-! DEFINITION. The named operations over memory, registers, program counter and call stack; the ends of a run: raising a
fault and halting. -/

namespace Sys2Proof.Machine

/-! ## Memory -/

/-- What an address with no entry reads as: memory is zero at reset (10_state.md R19). -/
def unlistedByte : Byte := 0

/-- The byte a list of cells holds at an address. -/
def lookupCell : List Host.Cell → Nat → Byte
  | [], _ => unlistedByte
  | (b, v) :: rest, a => if a = b then v else lookupCell rest a

/-- `MemRead(a, 1)` (20_memory.md R26): no side effect, never faults. Its callers check the bound (R25). -/
def Memory.read (m : Memory) (a : Nat) : Byte := lookupCell m.cells a

/-- A cell put in front of the cells above it, unless it says what an unlisted address says already. -/
def consCell (a : Nat) (v : Byte) (rest : List Host.Cell) : List Host.Cell :=
  if v = unlistedByte then rest else (a, v) :: rest

/-- Cells with one byte written, canonical if they were. -/
def insertCell : List Host.Cell → Nat → Byte → List Host.Cell
  | [], a, v => consCell a v []
  | (b, w) :: rest, a, v =>
    if a < b then consCell a v ((b, w) :: rest)
    else if a = b then consCell a v rest
    else (b, w) :: insertCell rest a v

/-- `MemWrite(a, 1, v)` (00_scope.md section 6): only the host's seeding calls it (R32). -/
def Memory.write (m : Memory) (a : Nat) (v : Byte) : Memory := ⟨insertCell m.cells a v⟩

/-- A block of bytes from an address upwards (70_reset_and_hazards.md R73). -/
def Memory.writeBlock (m : Memory) : Nat → List Byte → Memory
  | _, [] => m
  | a, v :: vs => (m.write a v).writeBlock (a + 1) vs

/-- The canonical form, inside the address space (R21): addresses strictly rising and below 4096, no cell that says what
an unlisted address says. -/
abbrev Memory.wf (m : Memory) : Prop :=
  m.cells.Pairwise (fun c d => c.1 < d.1) ∧
    ∀ c ∈ m.cells, c.1 < Config.memSize ∧ c.2 ≠ unlistedByte

/-! ## Registers (10_state.md R6, R8) -/

/-- Read of `x[i]`. No register is hardwired. -/
def readReg (s : State) (i : RegIdx) : Byte := s.x[i.val]

/-- Write of `x[i]`. -/
def writeReg (i : RegIdx) (v : Byte) (s : State) : State :=
  { s with x := s.x.set i.val v i.isLt }

/-! ## Program counter -/

/-- `pc <- t`. -/
def setPc (t : Word) (s : State) : State := { s with pc := t }

/-- The provisional advance, made after every fetch and before the handler (40_step_fetch_decode_dispatch.md R44). It
cannot wrap where it is reached (`pc <= 4094`); elsewhere it is mod 65536 (R11, decision D17, log 8). -/
def advance (s : State) : State := setPc (s.pc + Config.instrBytes) s

/-! ## Call stack (10_state.md R12, R13; 43_subroutine_call_return.md R58) -/

/-- Push, or none when 16 entries are outstanding (R56, decision D4, log 11). -/
def push (v : Word) (s : State) : Option State :=
  if h : s.sp.val < Config.stackDepth then
    some { s with stack := s.stack.set s.sp.val v h, sp := ⟨s.sp.val + 1, Nat.succ_lt_succ h⟩ }
  else none

/-- Pop: the new top-of-stack slot and the state with `sp` one less, or none when the stack is empty (R57). The entry is
not cleared (R58, decision D16, log 14). -/
def pop (s : State) : Option (Word × State) :=
  if h : s.sp.val = 0 then none
  else some (s.stack[s.sp.val - 1], { s with sp := ⟨s.sp.val - 1, by omega⟩ })

/-! ## The ends of a run -/

/-- `raise F(info)`: taking a fault (60_exceptions.md R65; 00_scope.md section 6). Three writes and nothing else: no
vector, no saved program counter, no rollback. There is no return from it (R66); only reset leaves FAULTED. -/
def raise (kind : FaultKind) (info : Word) (s : State) : State :=
  { s with status := .faulted, faultKind := kind, faultWord := info }

/-- `halt` (00_scope.md section 6; 41_system_halt.md R51). -/
def haltRun (s : State) : State := { s with status := .halted }

/-- The code of `fault_kind` (R60). The numbers are the spec's own (decision D5, log 12); only the distinction is
normative. -/
def FaultKind.code : FaultKind → Nat
  | .none => 0
  | .unimplementedInstruction => 1
  | .stackOverflow => 2
  | .stackUnderflow => 3
  | .outOfBoundsFetch => 4

end Sys2Proof.Machine
end

