-- ==== Sys2Proof/Machine/Operands.lean ====
section
/-! DEFINITION. The two kinds of operand (spec 30_encoding.md R37). There is no immediate data and no addressing mode. -/

namespace Sys2Proof.Machine

/-- A register operand: the index used directly (R37 (a)). -/
def regOperand (i : RegIdx) (s : State) : Byte := readReg s i

/-- The address operand of CALL: an absolute byte address, zero-extended to the 16 bits of `pc` (R37 (b)); not scaled, not
sign-extended, not added to anything. -/
def addrOperand (nnn : Target) : Word := nnn.zeroExtend 16

end Sys2Proof.Machine
end

