-- ==== Sys2Proof/Machine/Flags.lean ====
section
/-! DEFINITION. alu_adder_with_carry and the carry flag (spec 42_arith_add_with_carry.md R52 to R55; 10_state.md R7).
The carry is the only flag. -/

namespace Sys2Proof.Machine

/-- What the adder puts out (R53). -/
structure AdderOut where
  sum   : Byte
  carry : BitVec 1
deriving DecidableEq, Repr

/-- The 9-bit sum of two unsigned bytes, cut into the wrapped sum and the carry-out; there is no carry-in (R53). -/
def adder (a b : Byte) : AdderOut :=
  let s : BitVec 9 := a.zeroExtend 9 + b.zeroExtend 9
  ⟨s.extractLsb' 0 8, s.extractLsb' 8 1⟩

/-- `x[15] <- zext_8(carry)` (R52). -/
def writeCarry (c : BitVec 1) (s : State) : State :=
  writeReg Config.flagReg (c.zeroExtend 8) s

end Sys2Proof.Machine
end

