-- ==== Sys2Proof/Machine/Arith.lean ====
section
/-! DEFINITION. The arithmetic instruction (spec 42_arith_add_with_carry.md). -/

namespace Sys2Proof.Machine

/-- ADD xi, yi (R52): both reads first, then the wrapped sum into `x[xi]`, then the carry-out into `x[15]`. The flag is
written last, so with `xi = 15` the carry stays and the sum is lost (R54, decision D7, log 13). -/
def execAdd (xi yi : RegIdx) (s : State) : Host.Outcome State Fault Refusal :=
  let out := adder (regOperand xi s) (regOperand yi s)
  .next (writeCarry out.carry (writeReg xi out.sum s))

end Sys2Proof.Machine
end

