-- ==== Sys2Proof/Machine/Control.lean ====
section
/-! DEFINITION. The control transfer instructions (spec 43_subroutine_call_return.md). They run on the advanced `pc`. -/

namespace Sys2Proof.Machine

/-- CALL nnn (R56): the stack is checked first, then the advanced `pc` is pushed and `pc` takes the target. -/
def execCall (nnn : Target) (s : State) : Host.Outcome State Fault Refusal :=
  match push s.pc s with
  | none => .next (raise .stackOverflow 0 s)
  | some t => .next (setPc (addrOperand nnn) t)

/-- RET (R57): the stack is checked first, then `pc` takes the whole 16-bit entry at the new `sp`. -/
def execRet (s : State) : Host.Outcome State Fault Refusal :=
  match pop s with
  | none => .next (raise .stackUnderflow 0 s)
  | some (v, t) => .next (setPc v t)

end Sys2Proof.Machine
end

