-- ==== Sys2Proof/Machine/System.lean ====
section
/-! DEFINITION. The system instruction (spec 41_system_halt.md). -/

namespace Sys2Proof.Machine

/-- HALT (R51): `status <- HALTED` and nothing else. -/
def execHalt (s : State) : Host.Outcome State Fault Refusal := .next (haltRun s)

end Sys2Proof.Machine
end

