-- ==== Sys2Proof/Syntax.lean ====
section
/-! DEFINITION. The instructions, one constructor per row of spec/opcode_table.json, and the host's seeding commands. -/

namespace Sys2Proof

/-- The closed instruction set (00_scope.md R5, 30_encoding.md R38, R41). The destination is the first operand of ADD. -/
inductive Instr where
  /-- HALT, word 0x0000 (R51). -/
  | halt
  /-- RET, word 0x00EE (R57). -/
  | ret
  /-- CALL nnn, word 0x2nnn (R56). -/
  | call (nnn : Target)
  /-- ADD xi, yi, word 0x8xy4 (R52). -/
  | add (xi yi : RegIdx)
deriving DecidableEq, Repr

/-- What the host may write between reset and the start of the run (70_reset_and_hazards.md R73):
a block of bytes from an address on, or one register. An address is the host's own number, so a block may lie outside
memory; WellFormed.lean says which do not. -/
inductive Seed where
  | mem (addr : Nat) (bytes : List Byte)
  | reg (i : RegIdx) (v : Byte)
deriving DecidableEq, Repr

end Sys2Proof
end

