-- ==== Sys2Proof/Machine/Dispatch.lean ====
section
/-! DEFINITION. One arm per instruction (spec 40_step_fetch_decode_dispatch.md R46). -/

namespace Sys2Proof.Machine

/-- The handler of an instruction, on the state after the advance (R44, R46, log 17). -/
def exec (i : Instr) (s : State) : Host.Outcome State Fault Refusal :=
  match i with
  | .halt => Sys2Proof.Machine.execHalt s
  | .ret => Sys2Proof.Machine.execRet s
  | .call nnn => Sys2Proof.Machine.execCall nnn s
  | .add xi yi => Sys2Proof.Machine.execAdd xi yi s

end Sys2Proof.Machine
end

