-- ==== Sys2Proof/WellFormed.lean ====
section
/-! DEFINITION. Which instructions and which seeding commands are well formed. -/

namespace Sys2Proof

/-- Every instruction term is well formed: the types already bound each field, and the spec makes every value of a field
legal (30_encoding.md R37: "every value is legal"; 43_subroutine_call_return.md R56 corner case (a): any `nnn`, odd
targets included). An ill-formed instruction is a WORD that matches no row; Decode.lean refuses it by name. -/
def Instr.wellFormed : Instr → Bool
  | .halt => true
  | .ret => true
  | .call _ => true
  | .add _ _ => true

/-- A seeding command is well formed when every byte it writes has an address from 0 to 4095
(70_reset_and_hazards.md R73: "a bulk memory-write operation (address, bytes) with bounds checking").
DESIGN CHOICE (log 22): the spec is silent on an EMPTY block, which writes no byte; the test on the block's end accepts it at
addresses 0 to 4096 and refuses it above 4096. Safe: a refused block says nothing of a run, an accepted one writes nothing. -/
def Seed.wellFormed : Seed → Bool
  | .mem addr bytes => decide (addr + bytes.length ≤ Config.memSize)
  | .reg _ _ => true

end Sys2Proof
end

