-- ==== Sys2Proof/Decode.lean ====
section
/-! DEFINITION. The instruction_decoder: the fields of a word, the opcode map, decoding (total, rejecting by name) and the
encoder (spec 30_encoding.md, 40_step_fetch_decode_dispatch.md R45, R46). -/

namespace Sys2Proof

/-! ## Bytes and words -/

/-- Two bytes make a word, high byte first (20_memory.md R23). -/
def joinBytes (hi lo : Byte) : Word :=
  (hi.zeroExtend 16 <<< 8) ||| lo.zeroExtend 16

/-- The byte at the lower address: bits 15 to 8 (R23). -/
def highByte (w : Word) : Byte := w.extractLsb' 8 8

/-- The byte at the higher address: bits 7 to 0 (R23). -/
def lowByte (w : Word) : Byte := w.extractLsb' 0 8

/-- A word as the hardware stores it, lowest address first (R23, R34). -/
def wordBytes (w : Word) : List Byte := [highByte w, lowByte w]

/-! ## The fields (R35) -/

/-- `g`, the group: bits 15 to 12. -/
def fieldG (iw : Word) : BitVec 4 := iw.extractLsb' 12 4

/-- `xi`, register-x: bits 11 to 8. -/
def fieldXi (iw : Word) : RegIdx := (iw.extractLsb' 8 4).toFin

/-- `yi`, register-y: bits 7 to 4. -/
def fieldYi (iw : Word) : RegIdx := (iw.extractLsb' 4 4).toFin

/-- `n`, the sub-opcode: bits 3 to 0. -/
def fieldN (iw : Word) : BitVec 4 := iw.extractLsb' 0 4

/-- `nnn`, the address field: bits 11 to 0, overlapping `xi`, `yi`, `n`. -/
def fieldNnn (iw : Word) : Target := iw.extractLsb' 0 12

/-! ## The opcode map (R38) -/

/-- A row of the opcode map: a word is the row's when its bits under `mask` are `pattern`. -/
structure OpcodeRow where
  mnemonic : String
  mask     : Word
  pattern  : Word
deriving DecidableEq, Repr

def OpcodeRow.matchesWord (r : OpcodeRow) (iw : Word) : Bool :=
  iw &&& r.mask == r.pattern

def rowHalt : OpcodeRow := ⟨"HALT", 0xFFFF, 0x0000⟩
def rowRet  : OpcodeRow := ⟨"RET",  0xFFFF, 0x00EE⟩
def rowCall : OpcodeRow := ⟨"CALL", 0xF000, 0x2000⟩
def rowAdd  : OpcodeRow := ⟨"ADD",  0xF00F, 0x8004⟩

/-- Rows 1 to 4 of R38 in the spec's order. -/
def opcodeMap : List OpcodeRow := [rowHalt, rowRet, rowCall, rowAdd]

/-- The row an instruction belongs to. -/
def Instr.row : Instr → OpcodeRow
  | .halt => rowHalt
  | .ret => rowRet
  | .call _ => rowCall
  | .add _ _ => rowAdd

/-! ## Decoding -/

/-- Why bytes are no instruction. -/
inductive DecodeError where
  /-- The word matches no pattern of R38 (R39); the step turns this into the UnimplementedInstruction fault. -/
  | unimplemented (iw : Word)
  /-- Fewer than two bytes; no fetch meets this, since a fetch reads two bytes or faults (R43). -/
  | truncated
deriving DecidableEq, Repr

/-- Decode and dispatch of one word, in the order of R46; first match wins. -/
def decodeWord (iw : Word) : Except DecodeError Instr :=
  if fieldG iw = 0x0 ∧ fieldXi iw = 0x0 ∧ fieldYi iw = 0x0 ∧ fieldN iw = 0x0 then .ok .halt
  else if fieldG iw = 0x0 ∧ fieldXi iw = 0x0 ∧ fieldYi iw = 0xE ∧ fieldN iw = 0xE then .ok .ret
  else if fieldG iw = 0x2 then .ok (.call (fieldNnn iw))
  else if fieldG iw = 0x8 ∧ fieldN iw = 0x4 then .ok (.add (fieldXi iw) (fieldYi iw))
  else .error (.unimplemented iw)

/-- Decoding of a byte stream: the instruction and the bytes after it. -/
def decodeBytes : List Byte → Except DecodeError (Instr × List Byte)
  | hi :: lo :: rest => (decodeWord (joinBytes hi lo)).map fun i => (i, rest)
  | [_] => .error .truncated
  | [] => .error .truncated

/-! ## Encoding -/

/-- A register index as its 4-bit field (R37). -/
def regField (i : RegIdx) : BitVec 4 := BitVec.ofNat 4 i.val

/-- The word of an instruction, field by field from bit 15 down (R36, R38, R41). -/
def encode : Instr → Word
  | .halt => 0x0000
  | .ret => 0x00EE
  | .call nnn => 0x2#4 ++ nnn
  | .add xi yi => 0x8#4 ++ regField xi ++ regField yi ++ 0x4#4

/-! ## The opcode table's numbering -/

/-- The first word of an instruction whose first `nbits` bits are `w`, every bit above them 0. -/
def tableWord (nbits w : Nat) : Word := BitVec.ofNat 16 (w % 2 ^ nbits)

/-- The instruction this decoder reads from the bytes of an opcode-table row's bits `w`: the one word (R34) laid out
high byte first. -/
def decodeTableWord (nbits w : Nat) : Option Instr :=
  match decodeBytes (wordBytes (tableWord nbits w)) with
  | .ok (i, _) => some i
  | .error _ => none

end Sys2Proof
end

