-- ==== Sys2Proof/Machine/HostInterface.lean ====
section
/-! DEFINITION. What the host does before and after a run (spec 70_reset_and_hazards.md R72 to R75, R79). During a run it
has no move. -/

namespace Sys2Proof.Machine

/-- Reset, from any state: nothing survives it (R72, decision D22, log 15). -/
def hostReset (_ : State) : State := State.reset

/-- The launch state: `mem` and `x` as seeded, everything else at its reset value, RUNNING (R74). -/
def launch (x : Vector Byte 16) (mem : Memory) : State := { State.reset with x := x, mem := mem }

/-- Whether a state is a launch state: where seeding is still possible (R73, log 7). -/
def atLaunch (s : State) : Bool := decide (s = launch s.x s.mem)

/-- What a well-formed seeding command writes (R73). -/
def applySeed : Seed → State → State
  | .mem addr bytes, s => { s with mem := s.mem.writeBlock addr bytes }
  | .reg i v, s => writeReg i v s

/-- A seeding command of the host (R73): refused by name outside seeding (U11) and, as a whole, when it leaves memory
(U12, decision D15, log 7). -/
def seed (c : Seed) (s : State) : Host.Outcome State Fault Refusal :=
  if atLaunch s = false then .refused .hostMoveOutsideSeeding
  else if c.wellFormed = false then .refused .seedOutOfRange
  else .next (applySeed c s)

/-- What the host reads at the end (R79, decision D11, log 18). -/
structure Readout where
  x         : Vector Byte 16
  pc        : Word
  sp        : Depth
  stack     : Vector Word 16
  status    : RunStatus
  faultKind : FaultKind
  faultWord : Word
deriving DecidableEq, Repr

/-- The read-out: there once `status` is not RUNNING (R79, R71). -/
def readOut (s : State) : Option Readout :=
  if s.status = .running then none
  else some ⟨s.x, s.pc, s.sp, s.stack, s.status, s.faultKind, s.faultWord⟩

end Sys2Proof.Machine
end

