-- ==== Sys2Proof/Machine/Fetch.lean ====
section
/-! DEFINITION. The fetch_unit (spec 20_memory.md R22 to R26; 40_step_fetch_decode_dispatch.md R43). -/

namespace Sys2Proof.Machine

/-- Whether `pc + 1` is a valid memory index, on the unbounded number (R25, decision D17, log 8). -/
def fetchInBounds (s : State) : Bool := decide (s.pc.toNat + 1 < Config.memSize)

/-- The instruction word at `pc`, high byte first, at any `pc` from 0 to 4094, odd or even (R23, R24, decision D3, log 10);
none where the fetch is out of bounds. -/
def fetchWord (s : State) : Option Word :=
  if fetchInBounds s then
    some (joinBytes (s.mem.read s.pc.toNat) (s.mem.read (s.pc.toNat + 1)))
  else none

/-- Whether the next step fetches: it runs (R42) and the bound holds (R25). -/
def canFetch (s : State) : Bool := decide (s.status = .running) && fetchInBounds s

/-- The state with a word stored where the next step fetches. A state whose next step fetches nothing is first launched
anew with its memory and registers (R74, log 4). -/
def placeWord (s : State) (iw : Word) : State :=
  let b := if canFetch s then s else launch s.x s.mem
  { b with mem := b.mem.writeBlock b.pc.toNat (wordBytes iw) }

end Sys2Proof.Machine
end

