-- ==== Sys2Proof/Machine/Cycle.lean ====
section
/-! DEFINITION. The phases of one step in order (spec 40_step_fetch_decode_dispatch.md R43 to R48). -/

namespace Sys2Proof.Machine

/-- Decode and dispatch of a fetched word, on the advanced state (R45, R46); a word that is no instruction raises
UnimplementedInstruction with the word (R47). -/
def dispatchWord (iw : Word) (s : State) : Host.Outcome State Fault Refusal :=
  match decodeWord iw with
  | .ok i => exec i s
  | .error _ => .next (raise .unimplementedInstruction iw s)

/-- Fetch, advance, decode, dispatch, on a RUNNING state (R48). The fetch bound is tested before anything is written
(R43, R64). -/
def cycle (s : State) : Host.Outcome State Fault Refusal :=
  match fetchWord s with
  | none => .next (raise .outOfBoundsFetch 0 s)
  | some iw => dispatchWord iw (advance s)

end Sys2Proof.Machine
end

