-- ==== Sys2Proof/Machine/Step.lean ====
section
/-! DEFINITION. The step: it exists if and only if `status` is RUNNING (spec 40_step_fetch_decode_dispatch.md R42). -/

namespace Sys2Proof.Machine

/-- One step. HALTED and FAULTED have none (R42, log 1). -/
def step (s : State) : Host.Outcome State Fault Refusal :=
  match s.status with
  | .running => cycle s
  | .halted => .fault .noStepWhenHalted
  | .faulted => .fault .noStepWhenFaulted

/-- The state with an opcode-table row's bits stored where `step` fetches next (log 4). -/
def State.withFetchWord (s : State) (nbits w : Nat) : State := placeWord s (tableWord nbits w)

end Sys2Proof.Machine
end

