-- ==== Sys2Proof/Machine/Run.lean ====
section
/-! DEFINITION. Run-to-halt (spec 40_step_fetch_decode_dispatch.md R49). -/

namespace Sys2Proof.Machine

/-- At most `n` steps of `while status = RUNNING do step`; a state with no step stays (R49, R66, log 19). -/
def run : Nat → State → State
  | 0, s => s
  | n + 1, s =>
    match step s with
    | .next t => run n t
    | .fault _ => s
    | .refused _ => s

end Sys2Proof.Machine
end

