-- ==== Sys2Proof/Safety.lean ====
section
/-! DEFINITION. The terms claims are stated in: the invariants of the reachable states (spec 10_state.md R20), the ends of
a run, agreement of two states up to stale stack entries, and the spec's one-step pseudocode (R48) written a second time,
over natural numbers, to hold the machine against. -/

namespace Sys2Proof.Machine

/-! ## The invariants of 10_state.md R20 -/

/-- `0 <= pc <= 4096`. -/
abbrev State.pcInRange (s : State) : Prop := s.pc.toNat ≤ 4096

/-- Every live entry is from 2 to 4096 and is the address that follows a CALL: the byte two below it, the high byte of
the word there, has group 2. -/
abbrev State.liveEntriesFollowCalls (s : State) : Prop :=
  ∀ i : Fin 16, i.val < s.sp.val →
    2 ≤ s.stack[i.val].toNat ∧ s.stack[i.val].toNat ≤ 4096 ∧
      (s.mem.read (s.stack[i.val].toNat - 2)).toNat / 16 = 2

/-- Every entry at or above `sp` is 0 or a stale return address from 2 to 4096. -/
abbrev State.staleEntriesInRange (s : State) : Prop :=
  ∀ i : Fin 16, s.sp.val ≤ i.val →
    s.stack[i.val] = 0 ∨ (2 ≤ s.stack[i.val].toNat ∧ s.stack[i.val].toNat ≤ 4096)

/-- FAULTED if and only if a fault is recorded. -/
abbrev State.faultedIffRecorded (s : State) : Prop := s.status = .faulted ↔ s.faultKind ≠ .none

/-- A word is recorded if and only if the fault is UnimplementedInstruction. -/
abbrev State.wordIffUnimplemented (s : State) : Prop :=
  s.faultWord ≠ 0 ↔ s.faultKind = .unimplementedInstruction

/-- The invariants of R20 that speak of one state (`0 <= sp <= 16` holds by the type), with the canonical form of the
memory list. -/
abbrev State.Inv (s : State) : Prop :=
  s.pcInRange ∧ s.liveEntriesFollowCalls ∧ s.staleEntriesInRange ∧ s.faultedIffRecorded ∧
    s.wordIffUnimplemented ∧ s.mem.wf

/-! ## The ends of a run (70_reset_and_hazards.md R79) -/

/-- The run is over. -/
abbrev State.ended (s : State) : Prop := s.status ≠ .running

/-- The good end (U10): HALTED, with no fault recorded. -/
abbrev State.endedWell (s : State) : Prop := s.status = .halted ∧ s.faultKind = .none

/-- The bad ends (U10): FAULTED, with one of the four kinds recorded. -/
abbrev State.endedBadly (s : State) : Prop := s.status = .faulted ∧ s.faultKind ≠ .none

/-! ## Stale stack entries (43_subroutine_call_return.md R58, U13) -/

/-- Two states that differ at most in stack entries at or above `sp`. -/
abbrev State.agreeUpToStale (s t : State) : Prop :=
  s.x = t.x ∧ s.pc = t.pc ∧ s.sp = t.sp ∧ s.mem = t.mem ∧ s.status = t.status ∧
    s.faultKind = t.faultKind ∧ s.faultWord = t.faultWord ∧
    ∀ i : Fin 16, i.val < s.sp.val → s.stack[i.val] = t.stack[i.val]

/-! ## The step as R48 writes it -/

/-- R48's `raise`. -/
def pseudoRaise (kind : FaultKind) (info : Nat) (s : State) : State :=
  { s with status := .faulted, faultKind := kind, faultWord := BitVec.ofNat 16 info }

/-- R48's handlers, on the whole word `iw` and the state after the advance. -/
def pseudoDispatch (iw : Nat) (s : State) : State :=
  let g := iw / 4096
  let xi := iw / 256 % 16
  let yi := iw / 16 % 16
  let n := iw % 16
  let nnn := iw % 4096
  if iw = 0x0000 then { s with status := .halted }
  else if iw = 0x00EE then
    if h : s.sp.val = 0 then pseudoRaise .stackUnderflow 0 s
    else { s with sp := ⟨s.sp.val - 1, by omega⟩, pc := s.stack[s.sp.val - 1] }
  else if g = 0x2 then
    if h : s.sp.val ≥ 16 then pseudoRaise .stackOverflow 0 s
    else
      { s with
        stack := s.stack.set s.sp.val s.pc (by omega)
        sp := ⟨s.sp.val + 1, by omega⟩
        pc := BitVec.ofNat 16 nnn }
  else if g = 0x8 ∧ n = 0x4 then
    let a := (s.x[xi]'(Nat.mod_lt _ (by decide))).toNat
    let b := (s.x[yi]'(Nat.mod_lt _ (by decide))).toNat
    let sum := a + b
    let x' := s.x.set xi (BitVec.ofNat 8 (sum % 256)) (Nat.mod_lt _ (by decide))
    { s with x := x'.set 15 (if sum > 255 then 1 else 0) }
  else pseudoRaise .unimplementedInstruction iw s

/-- One step of a RUNNING state as the pseudocode of R48 has it. -/
def pseudoStep (s : State) : State :=
  let pc := s.pc.toNat
  if pc ≥ 4095 then pseudoRaise .outOfBoundsFetch 0 s
  else
    let iw := (s.mem.read pc).toNat * 256 + (s.mem.read (pc + 1)).toNat
    pseudoDispatch iw { s with pc := BitVec.ofNat 16 (pc + 2) }

end Sys2Proof.Machine
end

