-- ==== Sys2Proof/Certificates/Slice0/Obligations.lean ====
section
/-! DEFINITION. The statements for the provers, each over every state and operand its hypotheses allow. A handler runs on
the state after the advance (spec 40_step_fetch_decode_dispatch.md R44, log 17), so `pc` in a statement about `exec` is
already the address of the next instruction; a statement about `step` says the advance as well. -/

open Sys2Proof Sys2Proof.Machine

/-! ## Encoding -/

/-- Words of spec 95_test_vectors.md section 2.4 (V50 to V68) decode to what that table says. -/
def Obligations.SpecWordsDecodeAsListed : Prop :=
  decodeWord 0x0000 = .ok .halt ∧ decodeWord 0x00EE = .ok .ret ∧
  decodeWord 0x2100 = .ok (.call 0x100) ∧ decodeWord 0x2FFF = .ok (.call 0xFFF) ∧
  decodeWord 0x20EE = .ok (.call 0x0EE) ∧ decodeWord 0x8014 = .ok (.add 0 1) ∧
  decodeWord 0x8FF4 = .ok (.add 15 15) ∧ decodeWord 0x0001 = .error (.unimplemented 0x0001) ∧
  decodeWord 0x00E0 = .error (.unimplemented 0x00E0) ∧ decodeWord 0x8015 = .error (.unimplemented 0x8015)

/-- Decoding the bytes of an encoded instruction gives the instruction back, with every operand at every value the
encoding admits, and leaves the bytes after it (30_encoding.md R34, R36, R38). -/
def Obligations.DecodeOfEncodeIsTheInstruction : Prop :=
  ∀ (i : Instr) (rest : List Byte), decodeBytes (wordBytes (encode i) ++ rest) = .ok (i, rest)

/-- Each word has one meaning: a word that decodes is the encoding of what it decodes to. -/
def Obligations.EncodeOfDecodeIsTheWord : Prop :=
  ∀ (iw : Word) (i : Instr), decodeWord iw = .ok i → encode i = iw

/-- R35: the four fields and the overlapping address field, by shift and mask, and what they add up to. -/
def Obligations.FieldsAreCutByShiftAndMask : Prop :=
  ∀ iw : Word,
    (fieldG iw).toNat = (iw >>> 12 &&& 0xF).toNat ∧ (fieldXi iw).val = (iw >>> 8 &&& 0xF).toNat ∧
    (fieldYi iw).val = (iw >>> 4 &&& 0xF).toNat ∧ (fieldN iw).toNat = (iw &&& 0xF).toNat ∧
    (fieldNnn iw).toNat = (iw &&& 0x0FFF).toNat ∧
    (fieldNnn iw).toNat = (fieldXi iw).val * 256 + (fieldYi iw).val * 16 + (fieldN iw).toNat ∧
    iw.toNat = (fieldG iw).toNat * 4096 + (fieldNnn iw).toNat

/-- R46 with the table of R38 it names: exactly one of five outcomes, chosen by match and mask; the operands are the fields;
no word matches two rows, so the order of the tests does not matter; the handler chosen runs within the step, and a word
that matches no row raises UnimplementedInstruction with the whole word. -/
def Obligations.DispatchFollowsTheOpcodeMap : Prop :=
  (∀ iw : Word,
    (decodeWord iw = .ok .halt ↔ iw &&& 0xFFFF = 0x0000) ∧
    (decodeWord iw = .ok .ret ↔ iw &&& 0xFFFF = 0x00EE) ∧
    (∀ nnn, decodeWord iw = .ok (.call nnn) ↔ iw &&& 0xF000 = 0x2000 ∧ nnn = fieldNnn iw) ∧
    (∀ xi yi, decodeWord iw = .ok (.add xi yi) ↔
      iw &&& 0xF00F = 0x8004 ∧ xi = fieldXi iw ∧ yi = fieldYi iw) ∧
    (decodeWord iw = .error (.unimplemented iw) ↔ ∀ r ∈ opcodeMap, r.matchesWord iw = false)) ∧
  opcodeMap.Pairwise (fun r q => ∀ iw, r.matchesWord iw = true → q.matchesWord iw = false) ∧
  ∀ (iw : Word) (s : State),
    (∀ i, decodeWord iw = .ok i → dispatchWord iw s = exec i s) ∧
    ((∀ r ∈ opcodeMap, r.matchesWord iw = false) →
      dispatchWord iw s = .next { s with
        status := .faulted
        faultKind := .unimplementedInstruction
        faultWord := iw })

/-! ## Fetch -/

/-- R23, R24: the byte at `pc` is bits 15 to 8 of the word, the byte at `pc + 1` bits 7 to 0, at every `pc` from which two
bytes can be read, odd or even (that an odd `pc` fetches like an even one is R24's decision D3, log 10). -/
def Obligations.FetchReadsHighByteFirst : Prop :=
  ∀ s : State, s.pc.toNat + 1 < 4096 →
    ∃ iw, fetchWord s = some iw ∧
      iw.extractLsb' 8 8 = s.mem.read s.pc.toNat ∧ iw.extractLsb' 0 8 = s.mem.read (s.pc.toNat + 1)

/-- R43: the fetch succeeds if and only if `pc < 4095`; where it fails the step raises OutOfBoundsFetch with the `pc` the
step started with and every register, stack entry and byte as before. (What `fault_word` holds is decision D14; see
FaultsArePrecise.) -/
def Obligations.FetchOutOfBoundsFaultsInPlace : Prop :=
  ∀ s : State,
    ((∃ iw, fetchWord s = some iw) ↔ s.pc.toNat < 4095) ∧
    (s.pc.toNat < 4095 →
      fetchWord s = some (((s.mem.read s.pc.toNat).zeroExtend 16 <<< 8) ||| (s.mem.read (s.pc.toNat + 1)).zeroExtend 16)) ∧
    (s.status = .running → 4095 ≤ s.pc.toNat →
      ∃ t, step s = .next t ∧ t.status = .faulted ∧ t.faultKind = .outOfBoundsFetch ∧ t.pc = s.pc ∧
        t.x = s.x ∧ t.stack = s.stack ∧ t.sp = s.sp ∧ ∀ a, t.mem.read a = s.mem.read a)

/-- R22: the two bytes fetched are all a step reads of memory: with any other memory that agrees on them the step does the
same, and leaves that memory. -/
def Obligations.StepReadsOnlyTheFetchedBytes : Prop :=
  ∀ (s t : State) (m : Memory),
    m.read s.pc.toNat = s.mem.read s.pc.toNat → m.read (s.pc.toNat + 1) = s.mem.read (s.pc.toNat + 1) →
    step s = .next t → step { s with mem := m } = .next { t with mem := m }

/-! ## The step -/

/-- A RUNNING state whose two bytes at `pc` decode to an instruction runs the handler of that instruction on the state with
`pc` advanced by 2 (R43 to R46). -/
def Obligations.StepRunsTheDecodedInstruction : Prop :=
  ∀ (s : State) (i : Instr), s.status = .running → s.pc.toNat + 1 < 4096 →
    decodeBytes [s.mem.read s.pc.toNat, s.mem.read (s.pc.toNat + 1)] = .ok (i, []) → i.wellFormed = true →
    step s = exec i { s with pc := s.pc + 2 }

/-- R42 (its terminal states are decision D18; the named stops are the model's choice, log 1): a step exists if and only
if the machine is RUNNING; elsewhere the stop says why; a step is never refused. -/
def Obligations.StepExistsExactlyWhenRunning : Prop :=
  ∀ s : State,
    ((∃ t, step s = .next t) ↔ s.status = .running) ∧
    (s.status = .halted → step s = .fault .noStepWhenHalted) ∧
    (s.status = .faulted → step s = .fault .noStepWhenFaulted) ∧
    ∀ r, step s ≠ .refused r

/-- R48: the step of a RUNNING state is the spec's pseudocode, written a second time over natural numbers in Safety.lean.
Inside R48 stand decisions of the spec: the StackOverflow boundary (D4, log 11), what a fault records (D14, log 12), the
carry written after the sum (D7, log 13), entries kept by RET and pushed whole by CALL (D16, D19, log 14), the bound test
and the advance without wrap (D17, log 8), no alignment check (D3, log 10). -/
def Obligations.StepIsThePseudocode : Prop :=
  ∀ s : State, s.status = .running → step s = .next (pseudoStep s)

/-- R44, its whole table: where `pc` stands at the end of a step, per outcome. Where a CALL and a RET fault is R56's and
R57's (for the CALL, that it is `sp = 16` is decision D4, log 11). -/
def Obligations.PcAfterEachOutcome : Prop :=
  ∀ s t : State, step s = .next t →
    (fetchWord s = none → t.pc = s.pc) ∧
    ∀ iw, fetchWord s = some iw →
      (s.pc + 2).toNat = s.pc.toNat + 2 ∧ s.pc.toNat + 2 ≤ 4096 ∧
      (decodeWord iw = .ok .halt → t.pc = s.pc + 2) ∧
      (∀ xi yi, decodeWord iw = .ok (.add xi yi) → t.pc = s.pc + 2) ∧
      (∀ nnn, decodeWord iw = .ok (.call nnn) →
        (∀ h : s.sp.val < 16, t.pc.toNat = nnn.toNat ∧ t.stack[s.sp.val] = s.pc + 2) ∧
        (s.sp.val = 16 → t.pc = s.pc + 2)) ∧
      (decodeWord iw = .ok .ret →
        (s.sp.val ≠ 0 → t.pc = s.stack[s.sp.val - 1]) ∧ (s.sp.val = 0 → t.pc = s.pc + 2)) ∧
      (decodeWord iw = .error (.unimplemented iw) → t.pc = s.pc + 2)

/-- R47, R61: a fetched word outside the four patterns ends the run with UnimplementedInstruction and that word, `pc` past
it and nothing else changed; the word is not skipped: no step follows (that FAULTED has no step is R42's decision D18; that
the model answers no next state there is log 1). -/
def Obligations.UnimplementedWordEndsTheRun : Prop :=
  ∀ (s : State) (iw : Word), s.status = .running → fetchWord s = some iw →
    iw ≠ 0x0000 → iw ≠ 0x00EE → iw &&& 0xF000 ≠ 0x2000 → iw &&& 0xF00F ≠ 0x8004 →
    ∃ t, step s = .next t ∧
      t = { s with pc := s.pc + 2, status := .faulted, faultKind := .unimplementedInstruction, faultWord := iw } ∧
      ∀ u, step t ≠ .next u

/-! ## HALT -/

/-- R51: HALT writes `status` and nothing else and cannot fault; only the exact word 0x0000 is HALT; the step leaves `pc`
past it; no step follows (that HALTED has no step is R42's decision D18; that the model answers no next state there is
log 1); reset and started with nothing seeded the machine halts in its first step with `pc = 2` (that State.reset is RUNNING
already is the model's choice, log 3). -/
def Obligations.HaltEndsTheRun : Prop :=
  (∀ s : State, exec .halt s = .next { s with status := .halted }) ∧
  (∀ iw : Word, decodeWord iw = .ok .halt ↔ iw = 0x0000) ∧
  (∀ s : State, s.status = .running → fetchWord s = some 0x0000 →
    ∃ t, step s = .next t ∧ t = { s with pc := s.pc + 2, status := .halted } ∧ ∀ u, step t ≠ .next u) ∧
  step State.reset = .next { State.reset with pc := 2, status := .halted }

/-! ## ADD -/

/-- ADD completes in every state and for every operand, register 15 included: the carry-out of the two old values ends in
`x[15]`, the wrapped sum in `x[xi]` where that is another register, and nothing else changes (R52; that with `xi = 15` the
carry stays and the sum is lost is R54, decision D7, log 13). -/
def Obligations.AddWritesSumThenCarry : Prop :=
  ∀ (s : State) (xi yi : RegIdx), ∃ t, exec (.add xi yi) s = .next t ∧
    readReg t 15 = (if 256 ≤ (readReg s xi).toNat + (readReg s yi).toNat then 1 else 0) ∧
    (xi ≠ 15 → (readReg t xi).toNat = ((readReg s xi).toNat + (readReg s yi).toNat) % 256) ∧
    (∀ r, r ≠ xi → r ≠ 15 → readReg t r = readReg s r) ∧
    t.pc = s.pc ∧ t.stack = s.stack ∧ t.sp = s.sp ∧ (∀ a, t.mem.read a = s.mem.read a) ∧
    t.status = s.status ∧ t.faultKind = s.faultKind ∧ t.faultWord = s.faultWord

/-- R53: the adder's two outputs are the wrapped sum and the carry-out, together the true sum; it is commutative; and
through ADD every pair of register values shows it (with `xi` not 15, conflict C5). -/
def Obligations.AdderGivesTheTrueSum : Prop :=
  (∀ a b : Byte,
    (adder a b).sum.toNat = (a.toNat + b.toNat) % 256 ∧
    ((adder a b).carry = 1 ↔ 256 ≤ a.toNat + b.toNat) ∧
    a.toNat + b.toNat = 256 * (adder a b).carry.toNat + (adder a b).sum.toNat ∧
    adder a b = adder b a) ∧
  ∀ (s : State) (xi yi : RegIdx), xi ≠ 15 → ∃ t, exec (.add xi yi) s = .next t ∧
    (readReg t xi).toNat = ((readReg s xi).toNat + (readReg s yi).toNat) % 256 ∧
    (readReg t 15 = 1 ↔ 255 < (readReg s xi).toNat + (readReg s yi).toNat) ∧
    (readReg t 15 ≠ 1 → readReg t 15 = 0)

/-- R52's last corner case (91 N25): unless register 15 is named as an operand, what it held before has no effect on what
an ADD leaves; there is no carry-in. -/
def Obligations.AddIgnoresTheOldFlag : Prop :=
  ∀ (s : State) (xi yi : RegIdx) (v : Byte), xi ≠ 15 → yi ≠ 15 →
    exec (.add xi yi) (writeReg 15 v s) = exec (.add xi yi) s

/-! ## CALL and RET -/

/-- CALL with room on the stack completes: one entry takes the advanced `pc` whole, `sp` grows by 1, `pc` takes the target
zero-extended, odd or even, and nothing else changes (R56; the boundary at 16 is decision D4, log 11; the width pushed is
decision D19, log 14). -/
def Obligations.CallPushesAndJumps : Prop :=
  ∀ (s : State) (nnn : Target) (h : s.sp.val < 16), ∃ t, exec (.call nnn) s = .next t ∧
    t.stack[s.sp.val] = s.pc ∧ t.sp.val = s.sp.val + 1 ∧ t.pc.toNat = nnn.toNat ∧
    (∀ i : Fin 16, i.val ≠ s.sp.val → t.stack[i.val] = s.stack[i.val]) ∧
    (∀ r, readReg t r = readReg s r) ∧ (∀ a, t.mem.read a = s.mem.read a) ∧
    t.status = s.status ∧ t.faultKind = s.faultKind ∧ t.faultWord = s.faultWord

/-- CALL with 16 return addresses outstanding faults before any write of its own: `pc` past the CALL, not at the target,
stack and `sp` untouched (R56, R62; the boundary is decision D4, log 11; `fault_word` 0 is decision D14, log 12). -/
def Obligations.CallOnFullStackFaults : Prop :=
  ∀ (s : State) (nnn : Target), s.sp.val = 16 →
    (∃ t, exec (.call nnn) s = .next t ∧
      t = { s with status := .faulted, faultKind := .stackOverflow, faultWord := 0 }) ∧
    (s.status = .running → fetchWord s = some (encode (.call nnn)) →
      step s = .next
        { s with pc := s.pc + 2, status := .faulted, faultKind := .stackOverflow, faultWord := 0 })

/-- R57: RET with a return address outstanding completes: `sp` falls by 1, `pc` takes the whole entry that was the top,
every stack entry, the one read included, and everything else is unchanged; with `sp = 0` it raises StackUnderflow, with
`sp` still 0 and `pc` past the RET. That the entry read stays is decision D16, that all its 16 bits are loaded decision D19
(log 14). -/
def Obligations.RetPopsAndJumps : Prop :=
  (∀ (s : State) (h : s.sp.val ≠ 0), ∃ t, exec .ret s = .next t ∧
    t.sp.val = s.sp.val - 1 ∧ t.pc = s.stack[s.sp.val - 1] ∧ t.stack = s.stack ∧
    (∀ r, readReg t r = readReg s r) ∧ (∀ a, t.mem.read a = s.mem.read a) ∧
    t.status = s.status ∧ t.faultKind = s.faultKind ∧ t.faultWord = s.faultWord) ∧
  ∀ s : State, s.sp.val = 0 → ∃ t, exec .ret s = .next t ∧
    t.status = .faulted ∧ t.faultKind = .stackUnderflow ∧ t.sp = s.sp ∧ t.pc = s.pc ∧ t.stack = s.stack ∧
    (∀ r, readReg t r = readReg s r) ∧ ∀ a, t.mem.read a = s.mem.read a

/-- R63: the step of a RET with an empty stack: StackUnderflow, `pc` advanced by 2, `sp` 0 still, nothing else
(`fault_word` 0 is decision D14, log 12). -/
def Obligations.RetOnEmptyStackFaults : Prop :=
  ∀ s : State, s.status = .running → fetchWord s = some 0x00EE → s.sp.val = 0 →
    step s = .next { s with pc := s.pc + 2, status := .faulted, faultKind := .stackUnderflow, faultWord := 0 }

/-- R59: a CALL followed at once by a RET at its target comes back to the address after the CALL, with `sp`, every register
and every live entry as before, and the return address left in the slot. -/
def Obligations.CallThenRetComesBack : Prop :=
  ∀ (s : State) (nnn : Target) (h : s.sp.val < 16), s.status = .running →
    fetchWord s = some (encode (.call nnn)) → nnn.toNat ≤ 4094 →
    s.mem.read nnn.toNat = 0x00 → s.mem.read (nnn.toNat + 1) = 0xEE →
    ∃ t u, step s = .next t ∧ step t = .next u ∧
      u.pc = s.pc + 2 ∧ u.pc.toNat = s.pc.toNat + 2 ∧ u.sp = s.sp ∧ (∀ r, readReg u r = readReg s r) ∧
      (∀ i : Fin 16, i.val < s.sp.val → u.stack[i.val] = s.stack[i.val]) ∧
      u.stack[s.sp.val] = s.pc + 2 ∧ (∀ a, u.mem.read a = s.mem.read a) ∧ u.status = .running

/-- R58, R59 (derived there): the stack is last in, first out. After a CALL, however many steps stay above the depth the
CALL was made at, the step that first comes back to that depth lands on the address after the CALL, with every entry below
as it was. -/
def Obligations.BalancedSubroutineComesBack : Prop :=
  ∀ (s t u : State) (iw : Word) (nnn : Target) (n : Nat),
    fetchWord s = some iw → decodeWord iw = .ok (.call nnn) → step s = .next t →
    (∀ m, m ≤ n → s.sp.val < (run m t).sp.val) → step (run n t) = .next u → u.sp.val = s.sp.val →
    u.pc = s.pc + 2 ∧ u.status = .running ∧
      ∀ i : Fin 16, i.val < s.sp.val → u.stack[i.val] = s.stack[i.val]

/-! ## Invariants and whole-machine rules -/

/-- R20: every step keeps the invariants, from every state that has them. -/
def Obligations.StepKeepsTheInvariant : Prop :=
  ∀ s t : State, s.Inv → step s = .next t → t.Inv

/-- R19, R20: the state after reset has the invariants. -/
def Obligations.ResetMeetsTheInvariant : Prop := State.reset.Inv

/-- R74, R20: every launch state, whatever was seeded, has the invariants. -/
def Obligations.LaunchMeetsTheInvariant : Prop :=
  ∀ (x : Vector Byte 16) (m : Memory), m.wf → (launch x m).Inv

/-- R10 (derived there; that no alignment is checked is decision D3, log 10): from an even `pc` and even live return
addresses, `pc` is even at every fetch of the run if and only if every CALL that goes through has an even target. -/
def Obligations.PcStaysEvenExactlyByEvenCalls : Prop :=
  ∀ s : State, s.pc.toNat % 2 = 0 → (∀ i : Fin 16, i.val < s.sp.val → s.stack[i.val].toNat % 2 = 0) →
    ((∀ n, (run n s).status = .running → (run n s).pc.toNat % 2 = 0) ↔
      ∀ n iw nnn, (run n s).status = .running → fetchWord (run n s) = some iw →
        decodeWord iw = .ok (.call nnn) → (run n s).sp.val < 16 → nnn.toNat % 2 = 0)

/-- R32 (decision D12, log 6): no run of any length changes a byte of memory. -/
def Obligations.RunsNeverWriteMemory : Prop :=
  ∀ (n : Nat) (s : State) (a : Nat), (run n s).mem.read a = s.mem.read a

/-- R8: a register changes in a step only where the word fetched is an ADD and the register is its destination or the
flag. -/
def Obligations.OnlyAddWritesRegisters : Prop :=
  ∀ (s t : State) (r : RegIdx), step s = .next t → readReg t r ≠ readReg s r →
    ∃ iw xi yi, fetchWord s = some iw ∧ decodeWord iw = .ok (.add xi yi) ∧ (r = xi ∨ r = 15)

/-- R12 (stale entries kept: decision D16; width: decision D19; log 14): a stack entry changes in a step only where the
word fetched is a CALL, the entry is the one at `sp`, and it takes the address after the CALL. -/
def Obligations.OnlyCallWritesTheStack : Prop :=
  ∀ (s t : State) (i : Fin 16), step s = .next t → t.stack[i.val] ≠ s.stack[i.val] →
    ∃ iw nnn, fetchWord s = some iw ∧ decodeWord iw = .ok (.call nnn) ∧ i.val = s.sp.val ∧
      t.stack[i.val] = s.pc + 2

/-- R13 (17 values: decision D2, log 9): `sp` grows by 1 on a CALL that goes through, falls by 1 on a RET that goes
through, and no other step moves it. -/
def Obligations.SpCountsCallsAndReturns : Prop :=
  ∀ s t : State, step s = .next t →
    (t.sp.val = s.sp.val + 1 ↔
      ∃ iw nnn, fetchWord s = some iw ∧ decodeWord iw = .ok (.call nnn) ∧ s.sp.val < 16) ∧
    (t.sp.val + 1 = s.sp.val ↔
      ∃ iw, fetchWord s = some iw ∧ decodeWord iw = .ok .ret ∧ s.sp.val ≠ 0) ∧
    (t.sp.val = s.sp.val + 1 ∨ t.sp.val + 1 = s.sp.val ∨ t.sp = s.sp)

/-- R65 (what the record holds beyond the kind is decision D14, log 12): a step that ends FAULTED has made no write but the
advance of `pc`, and not even that where the fetch was out of bounds; the record names a kind; the word is the fetched one
for UnimplementedInstruction and 0 otherwise. -/
def Obligations.FaultsArePrecise : Prop :=
  ∀ s t : State, step s = .next t → t.status = .faulted →
    t.faultKind ≠ .none ∧
    (∀ r, readReg t r = readReg s r) ∧ t.stack = s.stack ∧ t.sp = s.sp ∧
    (∀ a, t.mem.read a = s.mem.read a) ∧
    (t.faultKind = .outOfBoundsFetch → t.pc = s.pc) ∧
    (t.faultKind ≠ .outOfBoundsFetch → t.pc = s.pc + 2) ∧
    (t.faultKind = .unimplementedInstruction → fetchWord s = some t.faultWord) ∧
    (t.faultKind ≠ .unimplementedInstruction → t.faultWord = 0)

/-- R60, R67 (the boundary of StackOverflow is decision D4, log 11): a step raises each of the four faults exactly where
its condition holds, so at most one. -/
def Obligations.EachFaultHasItsCause : Prop :=
  ∀ s t : State, step s = .next t →
    (t.status = .faulted ∧ t.faultKind = .outOfBoundsFetch ↔ 4095 ≤ s.pc.toNat) ∧
    (t.status = .faulted ∧ t.faultKind = .unimplementedInstruction ↔
      ∃ iw, fetchWord s = some iw ∧ ∀ r ∈ opcodeMap, r.matchesWord iw = false) ∧
    (t.status = .faulted ∧ t.faultKind = .stackOverflow ↔
      ∃ iw, fetchWord s = some iw ∧ iw &&& 0xF000 = 0x2000 ∧ s.sp.val = 16) ∧
    (t.status = .faulted ∧ t.faultKind = .stackUnderflow ↔ fetchWord s = some 0x00EE ∧ s.sp.val = 0)

/-- R15 (three values: decision D6): a step ends HALTED exactly where it fetched the word 0x0000. -/
def Obligations.OnlyTheHaltWordHalts : Prop :=
  ∀ s t : State, step s = .next t → (t.status = .halted ↔ fetchWord s = some 0x0000)

/-- R50 (derived there), R79: every run ends, from every state; from a state with the invariants it ends in one of the
five ways: HALTED with no fault recorded, or FAULTED with one of the four kinds. -/
def Obligations.EveryRunEnds : Prop :=
  ∀ s : State, ∃ n, (run n s).ended ∧ (s.Inv → (run n s).endedWell ∨ (run n s).endedBadly)

/-- R66, R75 (absorbing ends: decisions D6, D18, log 15; that the model answers no next state there: log 1): once a run has
ended nothing changes any more, the fault record included, and no step exists; reset gives a RUNNING state again (RUNNING
already at reset is the model's choice, log 3). That seeding does nothing there either is HostHasNoMoveDuringTheRun. -/
def Obligations.EndedRunsStayEnded : Prop :=
  ∀ (s : State) (n : Nat), (run n s).ended →
    (∀ m, run (n + m) s = run n s) ∧ (∀ t, step (run n s) ≠ .next t) ∧ (hostReset (run n s)).status = .running

/-- R58, 93 U13 (stale entries kept: decision D16, log 14): what stands in stack entries at or above `sp` is never
observed: two states that differ only there run alike for ever, up to such entries. -/
def Obligations.StaleStackEntriesAreUnobservable : Prop :=
  ∀ (n : Nat) (s t : State), s.agreeUpToStale t → (run n s).agreeUpToStale (run n t)

/-! ## Reset and the host -/

/-- R19: after reset every element is zero, so the entry point is address 0, and no fault is recorded. (`status` at reset
stands in LaunchStartsAtAddressZero.) -/
def Obligations.ResetIsAllZero : Prop :=
  (∀ i, readReg State.reset i = 0) ∧ State.reset.pc = 0 ∧ (∀ i : Fin 16, State.reset.stack[i.val] = 0) ∧
    State.reset.sp = 0 ∧ (∀ a, State.reset.mem.read a = 0) ∧ State.reset.faultKind = .none ∧
    State.reset.faultWord = 0

/-- R72, R74, R27 (reset keeps nothing: decision D22, log 15; RUNNING already at reset: log 3): from any state reset gives
the reset state; a launch state has `mem` and `x` as seeded, an empty stack and no fault, and the first word fetched is the
one at addresses 0 and 1. -/
def Obligations.LaunchStartsAtAddressZero : Prop :=
  (∀ s, hostReset s = State.reset) ∧ State.reset.status = .running ∧
  ∀ (x : Vector Byte 16) (m : Memory),
    (launch x m).x = x ∧ (launch x m).mem = m ∧ (launch x m).pc = 0 ∧ (launch x m).sp = 0 ∧
    (∀ i : Fin 16, (launch x m).stack[i.val] = 0) ∧ (launch x m).status = .running ∧
    (launch x m).faultKind = .none ∧ (launch x m).faultWord = 0 ∧ atLaunch (launch x m) = true ∧
    fetchWord (launch x m) = some (joinBytes (m.read 0) (m.read 1))

/-- R73 (bounds: decision D15, log 7): before the run starts a block of bytes inside memory, or a byte for a register, is
written exactly where the host says; nothing else changes, and the state can be seeded further. That an EMPTY block is accepted
at addresses 0 to 4096 is the model's choice (log 22): R73 is silent on it. -/
def Obligations.SeedingWritesWhatTheHostSays : Prop :=
  (∀ (s : State) (addr : Nat) (bytes : List Byte), atLaunch s = true → s.mem.wf → addr + bytes.length ≤ 4096 →
    ∃ t, seed (.mem addr bytes) s = .next t ∧
      (∀ k (h : k < bytes.length), t.mem.read (addr + k) = bytes[k]) ∧
      (∀ a, a < addr ∨ addr + bytes.length ≤ a → t.mem.read a = s.mem.read a) ∧
      t.x = s.x ∧ t.mem.wf ∧ atLaunch t = true) ∧
  ∀ (s : State) (i : RegIdx) (v : Byte), atLaunch s = true →
    ∃ t, seed (.reg i v) s = .next t ∧ readReg t i = v ∧ (∀ r, r ≠ i → readReg t r = readReg s r) ∧
      t.mem = s.mem ∧ atLaunch t = true

/-- R73, R74, 93 U11, U12 (the names of the refusals are the model's, log 7): the host has no move once the run has left
its launch state, which it does with its first step; and a block that leaves memory is refused whole (decision D15). That an
EMPTY block above address 4096, which writes no byte, is refused too is the model's choice (log 22): R73 is silent on it. -/
def Obligations.HostHasNoMoveDuringTheRun : Prop :=
  (∀ (s t : State) (c : Seed), s.Inv → step s = .next t → seed c t = .refused .hostMoveOutsideSeeding) ∧
  ∀ (s : State) (addr : Nat) (bytes : List Byte), atLaunch s = true → 4096 < addr + bytes.length →
    seed (.mem addr bytes) s = .refused .seedOutOfRange

/-- R79, R71 (what is read besides the registers: decision D11, log 18): the host reads nothing while the run goes on, and
once it is over the registers and all that tells the five ends apart. -/
def Obligations.ReadOutShowsTheEndedState : Prop :=
  ∀ s : State,
    (s.status = .running → readOut s = none) ∧
    (s.ended → ∃ r, readOut s = some r ∧ r.x = s.x ∧ r.pc = s.pc ∧ r.sp = s.sp ∧ r.stack = s.stack ∧
      r.status = s.status ∧ r.faultKind = s.faultKind ∧ r.faultWord = s.faultWord)
end

