-- ==== Sys2Proof/Laws/Decode.lean ====
section
/-! SUPPORT. The byte order, the fields as numbers, and what decoding a word can answer. -/

namespace Sys2Proof

/-! ## Bytes and words -/

theorem joinBytes_toNat (hi lo : Byte) : (joinBytes hi lo).toNat = hi.toNat * 256 + lo.toNat := by
  have h1 := hi.isLt
  have h2 := lo.isLt
  have e : (hi.zeroExtend 16 <<< 8).toNat = hi.toNat <<< 8 := by
    simp only [BitVec.toNat_shiftLeft, BitVec.zeroExtend_eq_setWidth, BitVec.toNat_setWidth, Nat.shiftLeft_eq]
    omega
  have f : (lo.zeroExtend 16).toNat = lo.toNat := by
    simp only [BitVec.zeroExtend_eq_setWidth, BitVec.toNat_setWidth]
    omega
  rw [joinBytes, BitVec.toNat_or, e, f, ← Nat.shiftLeft_add_eq_or_of_lt h2, Nat.shiftLeft_eq]

theorem highByte_toNat (w : Word) : (highByte w).toNat = w.toNat / 256 := by
  have := w.isLt
  simp only [highByte, BitVec.extractLsb'_toNat, Nat.shiftRight_eq_div_pow]
  omega

theorem lowByte_toNat (w : Word) : (lowByte w).toNat = w.toNat % 256 := by
  simp [lowByte, BitVec.extractLsb'_toNat]

@[simp] theorem joinBytes_highByte_lowByte (w : Word) : joinBytes (highByte w) (lowByte w) = w := by
  apply BitVec.eq_of_toNat_eq
  rw [joinBytes_toNat, highByte_toNat, lowByte_toNat]
  omega

@[simp] theorem highByte_joinBytes (hi lo : Byte) : highByte (joinBytes hi lo) = hi := by
  apply BitVec.eq_of_toNat_eq
  have := lo.isLt
  rw [highByte_toNat, joinBytes_toNat]
  omega

@[simp] theorem lowByte_joinBytes (hi lo : Byte) : lowByte (joinBytes hi lo) = lo := by
  apply BitVec.eq_of_toNat_eq
  have := lo.isLt
  rw [lowByte_toNat, joinBytes_toNat]
  omega

/-! ## The fields as numbers -/

theorem fieldG_toNat (iw : Word) : (fieldG iw).toNat = iw.toNat / 4096 := by
  have := iw.isLt
  simp only [fieldG, BitVec.extractLsb'_toNat, Nat.shiftRight_eq_div_pow]
  omega

theorem fieldXi_val (iw : Word) : (fieldXi iw).val = iw.toNat / 256 % 16 := by
  simp [fieldXi, Nat.shiftRight_eq_div_pow]

theorem fieldYi_val (iw : Word) : (fieldYi iw).val = iw.toNat / 16 % 16 := by
  simp [fieldYi, Nat.shiftRight_eq_div_pow]

theorem fieldN_toNat (iw : Word) : (fieldN iw).toNat = iw.toNat % 16 := by
  simp [fieldN, BitVec.extractLsb'_toNat]

theorem fieldNnn_toNat (iw : Word) : (fieldNnn iw).toNat = iw.toNat % 4096 := by
  simp [fieldNnn, BitVec.extractLsb'_toNat]

/-! ## Encodings as numbers -/

theorem encode_call_toNat (nnn : Target) : (encode (.call nnn)).toNat = 0x2000 + nnn.toNat := by
  have := nnn.isLt
  simp only [encode, BitVec.toNat_append]
  rw [← Nat.shiftLeft_add_eq_or_of_lt (by simpa using this)]
  simp [Nat.shiftLeft_eq]

theorem encode_add_toNat (xi yi : RegIdx) :
    (encode (.add xi yi)).toNat = 0x8004 + xi.val * 256 + yi.val * 16 := by
  have hx := xi.isLt
  have hy := yi.isLt
  simp only [encode, regField, BitVec.toNat_append, BitVec.toNat_ofNat]
  rw [← Nat.shiftLeft_add_eq_or_of_lt (by omega), ← Nat.shiftLeft_add_eq_or_of_lt (by omega),
    ← Nat.shiftLeft_add_eq_or_of_lt (by omega)]
  simp only [Nat.shiftLeft_eq]
  omega

/-! ## The rows of the opcode map as conditions on the word -/

theorem and_groupMask (w : Word) : w &&& (0xF000 : Word) = fieldG w ++ 0#12 := by
  apply BitVec.eq_of_getLsbD_eq
  intro i hi
  simp only [fieldG, BitVec.getLsbD_and, BitVec.getLsbD_append, BitVec.getLsbD_extractLsb']
  interval_cases i <;> simp

theorem and_groupSubMask (w : Word) : w &&& (0xF00F : Word) = fieldG w ++ 0#8 ++ fieldN w := by
  apply BitVec.eq_of_getLsbD_eq
  intro i hi
  simp only [fieldG, fieldN, BitVec.getLsbD_and, BitVec.getLsbD_append, BitVec.getLsbD_extractLsb']
  interval_cases i <;> simp

theorem rowHalt_matches (w : Word) : rowHalt.matchesWord w = true ↔ w.toNat = 0 := by
  have e : w &&& (0xFFFF : Word) = w := BitVec.and_allOnes
  simp only [rowHalt, OpcodeRow.matchesWord, beq_iff_eq]
  rw [e, ← BitVec.toNat_inj]
  rfl

theorem rowRet_matches (w : Word) : rowRet.matchesWord w = true ↔ w.toNat = 0xEE := by
  have e : w &&& (0xFFFF : Word) = w := BitVec.and_allOnes
  simp only [rowRet, OpcodeRow.matchesWord, beq_iff_eq]
  rw [e, ← BitVec.toNat_inj]
  rfl

theorem rowCall_matches (w : Word) : rowCall.matchesWord w = true ↔ w.toNat / 4096 = 2 := by
  simp only [rowCall, OpcodeRow.matchesWord, beq_iff_eq]
  rw [and_groupMask, ← BitVec.toNat_inj, BitVec.toNat_append, fieldG_toNat,
    ← Nat.shiftLeft_add_eq_or_of_lt (by decide), show (0x2000 : Word).toNat = 0x2000 from rfl]
  simp only [Nat.shiftLeft_eq, BitVec.toNat_ofNat]
  omega

theorem rowAdd_matches (w : Word) : rowAdd.matchesWord w = true ↔ w.toNat / 4096 = 8 ∧ w.toNat % 16 = 4 := by
  simp only [rowAdd, OpcodeRow.matchesWord, beq_iff_eq]
  rw [and_groupSubMask, ← BitVec.toNat_inj, BitVec.toNat_append, BitVec.toNat_append, fieldG_toNat,
    ← Nat.shiftLeft_add_eq_or_of_lt (fieldN w).isLt, ← Nat.shiftLeft_add_eq_or_of_lt (by decide), fieldN_toNat,
    show (0x8004 : Word).toNat = 0x8004 from rfl]
  simp only [Nat.shiftLeft_eq, BitVec.toNat_ofNat]
  omega

/-! ## What decoding a word can answer -/

/-- The five outcomes of R46, each with its condition on the word as a number. -/
theorem decodeWord_cases (iw : Word) :
    (decodeWord iw = .ok .halt ∧ iw.toNat = 0) ∨
    (decodeWord iw = .ok .ret ∧ iw.toNat = 0xEE) ∨
    (decodeWord iw = .ok (.call (fieldNnn iw)) ∧ iw.toNat / 4096 = 2) ∨
    (decodeWord iw = .ok (.add (fieldXi iw) (fieldYi iw)) ∧ iw.toNat / 4096 = 8 ∧ iw.toNat % 16 = 4) ∨
    (decodeWord iw = .error (.unimplemented iw) ∧ iw.toNat ≠ 0 ∧ iw.toNat ≠ 0xEE ∧ iw.toNat / 4096 ≠ 2 ∧
      ¬(iw.toNat / 4096 = 8 ∧ iw.toNat % 16 = 4)) := by
  have hG (k : BitVec 4) : fieldG iw = k ↔ iw.toNat / 4096 = k.toNat := by
    rw [← BitVec.toNat_inj, fieldG_toNat]
  have hX (k : RegIdx) : fieldXi iw = k ↔ iw.toNat / 256 % 16 = k.val := by
    rw [← Fin.val_inj, fieldXi_val]
  have hY (k : RegIdx) : fieldYi iw = k ↔ iw.toNat / 16 % 16 = k.val := by
    rw [← Fin.val_inj, fieldYi_val]
  have hN (k : BitVec 4) : fieldN iw = k ↔ iw.toNat % 16 = k.toNat := by
    rw [← BitVec.toNat_inj, fieldN_toNat]
  unfold decodeWord
  simp only [hG, hX, hY, hN]
  generalize iw.toNat = k
  split
  · exact .inl ⟨rfl, by simp at *; omega⟩
  · split
    · exact .inr (.inl ⟨rfl, by simp at *; omega⟩)
    · split
      · exact .inr (.inr (.inl ⟨rfl, by simp at *; omega⟩))
      · split
        · exact .inr (.inr (.inr (.inl ⟨rfl, by simp at *; omega⟩)))
        · exact .inr (.inr (.inr (.inr ⟨rfl, by simp at *; omega⟩)))

end Sys2Proof
end

