-- ==== Sys2Proof/Laws/Memory.lean ====
section
/-! SUPPORT. The laws of memory: a read after a write, the canonical form that every write keeps, and that canonical
memories which read alike are equal data. -/

namespace Sys2Proof.Machine

/-- Cells above an address, rising, none redundant: what `Memory.wf` says of a tail. -/
def cellsAbove (lo : Nat) (cs : List Host.Cell) : Prop :=
  cs.Pairwise (fun c d => c.1 < d.1) ∧ ∀ c ∈ cs, lo ≤ c.1 ∧ c.1 < Config.memSize ∧ c.2 ≠ unlistedByte

theorem Memory.wf_iff_cellsAbove (m : Memory) : m.wf ↔ cellsAbove 0 m.cells := by
  simp [Memory.wf, cellsAbove]

theorem cellsAbove_cons {lo b : Nat} {w : Byte} {cs : List Host.Cell} :
    cellsAbove lo ((b, w) :: cs) ↔
      lo ≤ b ∧ b < Config.memSize ∧ w ≠ unlistedByte ∧ cellsAbove (b + 1) cs := by
  simp only [cellsAbove, List.pairwise_cons, List.mem_cons, forall_eq_or_imp]
  constructor
  · rintro ⟨⟨h1, h2⟩, ⟨h3, h4, h5⟩, h6⟩
    exact ⟨h3, h4, h5, h2, fun c hc => ⟨h1 c hc, (h6 c hc).2⟩⟩
  · rintro ⟨h3, h4, h5, h2, h6⟩
    exact ⟨⟨fun c hc => (h6 c hc).1, h2⟩, ⟨h3, h4, h5⟩, fun c hc => ⟨by have := (h6 c hc).1; omega, (h6 c hc).2⟩⟩

theorem lookupCell_below {lo a : Nat} {cs : List Host.Cell} (h : cellsAbove lo cs) (ha : a < lo) :
    lookupCell cs a = unlistedByte := by
  induction cs generalizing lo with
  | nil => rfl
  | cons c cs ih =>
    obtain ⟨b, w⟩ := c
    obtain ⟨h1, -, -, h4⟩ := cellsAbove_cons.1 h
    have : a ≠ b := by omega
    simp only [lookupCell, this, if_false]
    exact ih h4 (by omega)

theorem lookupCell_consCell {a b : Nat} {v : Byte} {cs : List Host.Cell} (h : cellsAbove (a + 1) cs) :
    lookupCell (consCell a v cs) b = if b = a then v else lookupCell cs b := by
  unfold consCell
  split
  · rename_i hv
    by_cases hb : b = a
    · subst hb
      simp [hv, lookupCell_below h]
    · simp [hb]
  · rfl

theorem lookupCell_insertCell {lo a b : Nat} {v : Byte} {cs : List Host.Cell} (h : cellsAbove lo cs) :
    lookupCell (insertCell cs a v) b = if b = a then v else lookupCell cs b := by
  induction cs generalizing lo with
  | nil => exact lookupCell_consCell ⟨List.Pairwise.nil, by simp⟩
  | cons c cs ih =>
    obtain ⟨d, w⟩ := c
    obtain ⟨h1, h2, h3, h4⟩ := cellsAbove_cons.1 h
    unfold insertCell
    split
    · exact lookupCell_consCell (cellsAbove_cons.2 ⟨by omega, h2, h3, h4⟩)
    · split
      · rename_i had
        subst had
        rw [lookupCell_consCell h4]
        by_cases hb : b = a <;> simp [lookupCell, hb]
      · simp only [lookupCell, ih h4]
        by_cases hb : b = d
        · subst hb
          simp [show b ≠ a by omega]
        · simp [hb]

theorem cellsAbove_consCell {lo a : Nat} {v : Byte} {cs : List Host.Cell} (h : cellsAbove (a + 1) cs) (hlo : lo ≤ a)
    (ha : a < Config.memSize) : cellsAbove lo (consCell a v cs) := by
  unfold consCell
  split
  · exact ⟨h.1, fun c hc => ⟨by have := (h.2 c hc).1; omega, (h.2 c hc).2⟩⟩
  · rename_i hv
    exact cellsAbove_cons.2 ⟨hlo, ha, hv, h⟩

theorem cellsAbove_insertCell {lo a : Nat} {v : Byte} {cs : List Host.Cell} (h : cellsAbove lo cs) (hlo : lo ≤ a)
    (ha : a < Config.memSize) : cellsAbove lo (insertCell cs a v) := by
  induction cs generalizing lo with
  | nil => exact cellsAbove_consCell ⟨List.Pairwise.nil, by simp⟩ hlo ha
  | cons c cs ih =>
    obtain ⟨d, w⟩ := c
    obtain ⟨h1, h2, h3, h4⟩ := cellsAbove_cons.1 h
    unfold insertCell
    split
    · exact cellsAbove_consCell (cellsAbove_cons.2 ⟨by omega, h2, h3, h4⟩) hlo ha
    · split
      · rename_i had
        subst had
        exact cellsAbove_consCell h4 hlo ha
      · exact cellsAbove_cons.2 ⟨h1, h2, h3, ih h4 (by omega)⟩

/-! ## What the rest of the package cites -/

theorem Memory.read_write {m : Memory} (h : m.wf) (a b : Nat) (v : Byte) :
    (m.write a v).read b = if b = a then v else m.read b :=
  lookupCell_insertCell (m.wf_iff_cellsAbove.1 h)

theorem Memory.read_write_same {m : Memory} (h : m.wf) (a : Nat) (v : Byte) : (m.write a v).read a = v := by
  simp [Memory.read_write h]

theorem Memory.read_write_other {m : Memory} (h : m.wf) {a b : Nat} (hb : b ≠ a) (v : Byte) :
    (m.write a v).read b = m.read b := by
  simp [Memory.read_write h, hb]

theorem Memory.write_keeps_wf {m : Memory} (h : m.wf) {a : Nat} (ha : a < Config.memSize) (v : Byte) :
    (m.write a v).wf :=
  (Memory.wf_iff_cellsAbove _).2 (cellsAbove_insertCell (m.wf_iff_cellsAbove.1 h) (Nat.zero_le a) ha)

theorem Memory.writeBlock_keeps_wf {m : Memory} (h : m.wf) {a : Nat} {bs : List Byte}
    (ha : a + bs.length ≤ Config.memSize) : (m.writeBlock a bs).wf := by
  induction bs generalizing m a with
  | nil => exact h
  | cons v vs ih =>
    simp only [List.length_cons] at ha
    exact ih (Memory.write_keeps_wf h (by omega) v) (by omega)

theorem Memory.read_writeBlock_below {m : Memory} (h : m.wf) {a b : Nat} {bs : List Byte}
    (ha : a + bs.length ≤ Config.memSize) (hb : b < a) : (m.writeBlock a bs).read b = m.read b := by
  induction bs generalizing m a with
  | nil => rfl
  | cons v vs ih =>
    simp only [List.length_cons] at ha
    rw [Memory.writeBlock, ih (Memory.write_keeps_wf h (by omega) v) (by omega) (by omega),
      Memory.read_write_other h (by omega)]

/-- Reading after a block write: the block's byte inside the block, the old byte outside. -/
theorem Memory.read_writeBlock {m : Memory} (h : m.wf) {a : Nat} {bs : List Byte}
    (ha : a + bs.length ≤ Config.memSize) (b : Nat) :
    (m.writeBlock a bs).read b = if hb : a ≤ b ∧ b - a < bs.length then bs[b - a]'hb.2 else m.read b := by
  induction bs generalizing m a with
  | nil => simp [Memory.writeBlock]
  | cons v vs ih =>
    simp only [List.length_cons] at ha
    have hw := Memory.write_keeps_wf h (show a < Config.memSize by omega) v
    rw [Memory.writeBlock]
    rcases Nat.lt_trichotomy b a with hlt | heq | hgt
    · rw [Memory.read_writeBlock_below hw (by omega) (by omega), Memory.read_write_other h (by omega),
        dif_neg (by omega)]
    · subst heq
      rw [Memory.read_writeBlock_below hw (by omega) (by omega), Memory.read_write_same h]
      simp
    · obtain ⟨k, rfl⟩ : ∃ k, b = a + 1 + k := ⟨b - (a + 1), by omega⟩
      rw [ih hw (by omega), Memory.read_write_other h (by omega)]
      have e : a + 1 + k - a = k + 1 := by omega
      have e' : a + 1 + k - (a + 1) = k := by omega
      by_cases hk : k < vs.length
      · rw [dif_pos ⟨by omega, by omega⟩, dif_pos ⟨by omega, by simp only [List.length_cons]; omega⟩]
        simp [e, e']
      · rw [dif_neg (by omega), dif_neg (by simp only [List.length_cons]; omega)]

theorem cellsAbove_ext {lo : Nat} {cs ds : List Host.Cell} (hc : cellsAbove lo cs) (hd : cellsAbove lo ds)
    (h : ∀ a, lookupCell cs a = lookupCell ds a) : cs = ds := by
  induction cs generalizing lo ds with
  | nil =>
    cases ds with
    | nil => rfl
    | cons d ds =>
      obtain ⟨b, w⟩ := d
      have := h b
      simp only [lookupCell, if_true] at this
      exact absurd this.symm (cellsAbove_cons.1 hd).2.2.1
  | cons c cs ih =>
    obtain ⟨a, v⟩ := c
    obtain ⟨-, -, hv, hc'⟩ := cellsAbove_cons.1 hc
    cases ds with
    | nil =>
      have := h a
      simp only [lookupCell, if_true] at this
      exact absurd this hv
    | cons d ds =>
      obtain ⟨b, w⟩ := d
      obtain ⟨-, -, hw, hd'⟩ := cellsAbove_cons.1 hd
      have hab : a = b := by
        rcases Nat.lt_trichotomy a b with hlt | heq | hgt
        · have := h a
          simp only [lookupCell, if_true, show a ≠ b by omega, if_false] at this
          exact absurd (this.trans (lookupCell_below hd' (by omega))) hv
        · exact heq
        · have := h b
          simp only [lookupCell, if_true, show b ≠ a by omega, if_false] at this
          exact absurd (this.symm.trans (lookupCell_below hc' (by omega))) hw
      subst hab
      have hvw : v = w := by simpa [lookupCell] using h a
      subst hvw
      have htail : cs = ds := ih hc' hd' fun k => by
        by_cases hk : k = a
        · subst hk
          rw [lookupCell_below hc' (by omega), lookupCell_below hd' (by omega)]
        · simpa [lookupCell, hk] using h k
      rw [htail]

/-- Canonical memories that read alike are equal data. -/
theorem Memory.ext_of_wf {m k : Memory} (hm : m.wf) (hk : k.wf) (h : ∀ a, m.read a = k.read a) : m = k := by
  obtain ⟨cs⟩ := m
  obtain ⟨ds⟩ := k
  exact congrArg Memory.mk (cellsAbove_ext ((Memory.wf_iff_cellsAbove _).1 hm) ((Memory.wf_iff_cellsAbove _).1 hk) h)

theorem reset_mem_wf : State.reset.mem.wf := by decide

theorem reset_mem_read (a : Nat) : State.reset.mem.read a = 0 := rfl

end Sys2Proof.Machine
end

