-- ==== Sys2Proof/Laws/State.lean ====
section
/-! SUPPORT. One lemma per field per update of the state, so that no later proof unfolds a record update. -/

namespace Sys2Proof.Machine

/-! ## writeReg -/

@[simp] theorem writeReg_x (i : RegIdx) (v : Byte) (s : State) : (writeReg i v s).x = s.x.set i.val v i.isLt := rfl
@[simp] theorem writeReg_pc (i : RegIdx) (v : Byte) (s : State) : (writeReg i v s).pc = s.pc := rfl
@[simp] theorem writeReg_stack (i : RegIdx) (v : Byte) (s : State) : (writeReg i v s).stack = s.stack := rfl
@[simp] theorem writeReg_sp (i : RegIdx) (v : Byte) (s : State) : (writeReg i v s).sp = s.sp := rfl
@[simp] theorem writeReg_mem (i : RegIdx) (v : Byte) (s : State) : (writeReg i v s).mem = s.mem := rfl
@[simp] theorem writeReg_status (i : RegIdx) (v : Byte) (s : State) : (writeReg i v s).status = s.status := rfl
@[simp] theorem writeReg_faultKind (i : RegIdx) (v : Byte) (s : State) : (writeReg i v s).faultKind = s.faultKind := rfl
@[simp] theorem writeReg_faultWord (i : RegIdx) (v : Byte) (s : State) : (writeReg i v s).faultWord = s.faultWord := rfl

/-! ## writeCarry -/

@[simp] theorem writeCarry_x (c : BitVec 1) (s : State) : (writeCarry c s).x = s.x.set 15 (c.zeroExtend 8) := rfl
@[simp] theorem writeCarry_pc (c : BitVec 1) (s : State) : (writeCarry c s).pc = s.pc := rfl
@[simp] theorem writeCarry_stack (c : BitVec 1) (s : State) : (writeCarry c s).stack = s.stack := rfl
@[simp] theorem writeCarry_sp (c : BitVec 1) (s : State) : (writeCarry c s).sp = s.sp := rfl
@[simp] theorem writeCarry_mem (c : BitVec 1) (s : State) : (writeCarry c s).mem = s.mem := rfl
@[simp] theorem writeCarry_status (c : BitVec 1) (s : State) : (writeCarry c s).status = s.status := rfl
@[simp] theorem writeCarry_faultKind (c : BitVec 1) (s : State) : (writeCarry c s).faultKind = s.faultKind := rfl
@[simp] theorem writeCarry_faultWord (c : BitVec 1) (s : State) : (writeCarry c s).faultWord = s.faultWord := rfl

/-! ## setPc -/

@[simp] theorem setPc_x (t : Word) (s : State) : (setPc t s).x = s.x := rfl
@[simp] theorem setPc_pc (t : Word) (s : State) : (setPc t s).pc = t := rfl
@[simp] theorem setPc_stack (t : Word) (s : State) : (setPc t s).stack = s.stack := rfl
@[simp] theorem setPc_sp (t : Word) (s : State) : (setPc t s).sp = s.sp := rfl
@[simp] theorem setPc_mem (t : Word) (s : State) : (setPc t s).mem = s.mem := rfl
@[simp] theorem setPc_status (t : Word) (s : State) : (setPc t s).status = s.status := rfl
@[simp] theorem setPc_faultKind (t : Word) (s : State) : (setPc t s).faultKind = s.faultKind := rfl
@[simp] theorem setPc_faultWord (t : Word) (s : State) : (setPc t s).faultWord = s.faultWord := rfl

/-! ## advance -/

@[simp] theorem advance_x (s : State) : (advance s).x = s.x := rfl
@[simp] theorem advance_pc (s : State) : (advance s).pc = s.pc + 2 := rfl
@[simp] theorem advance_stack (s : State) : (advance s).stack = s.stack := rfl
@[simp] theorem advance_sp (s : State) : (advance s).sp = s.sp := rfl
@[simp] theorem advance_mem (s : State) : (advance s).mem = s.mem := rfl
@[simp] theorem advance_status (s : State) : (advance s).status = s.status := rfl
@[simp] theorem advance_faultKind (s : State) : (advance s).faultKind = s.faultKind := rfl
@[simp] theorem advance_faultWord (s : State) : (advance s).faultWord = s.faultWord := rfl

/-! ## raise -/

@[simp] theorem raise_x (k : FaultKind) (w : Word) (s : State) : (raise k w s).x = s.x := rfl
@[simp] theorem raise_pc (k : FaultKind) (w : Word) (s : State) : (raise k w s).pc = s.pc := rfl
@[simp] theorem raise_stack (k : FaultKind) (w : Word) (s : State) : (raise k w s).stack = s.stack := rfl
@[simp] theorem raise_sp (k : FaultKind) (w : Word) (s : State) : (raise k w s).sp = s.sp := rfl
@[simp] theorem raise_mem (k : FaultKind) (w : Word) (s : State) : (raise k w s).mem = s.mem := rfl
@[simp] theorem raise_status (k : FaultKind) (w : Word) (s : State) : (raise k w s).status = .faulted := rfl
@[simp] theorem raise_faultKind (k : FaultKind) (w : Word) (s : State) : (raise k w s).faultKind = k := rfl
@[simp] theorem raise_faultWord (k : FaultKind) (w : Word) (s : State) : (raise k w s).faultWord = w := rfl

/-! ## haltRun -/

@[simp] theorem haltRun_x (s : State) : (haltRun s).x = s.x := rfl
@[simp] theorem haltRun_pc (s : State) : (haltRun s).pc = s.pc := rfl
@[simp] theorem haltRun_stack (s : State) : (haltRun s).stack = s.stack := rfl
@[simp] theorem haltRun_sp (s : State) : (haltRun s).sp = s.sp := rfl
@[simp] theorem haltRun_mem (s : State) : (haltRun s).mem = s.mem := rfl
@[simp] theorem haltRun_status (s : State) : (haltRun s).status = .halted := rfl
@[simp] theorem haltRun_faultKind (s : State) : (haltRun s).faultKind = s.faultKind := rfl
@[simp] theorem haltRun_faultWord (s : State) : (haltRun s).faultWord = s.faultWord := rfl

/-! ## launch -/

@[simp] theorem launch_x (x : Vector Byte 16) (m : Memory) : (launch x m).x = x := rfl
@[simp] theorem launch_pc (x : Vector Byte 16) (m : Memory) : (launch x m).pc = 0 := rfl
@[simp] theorem launch_stack (x : Vector Byte 16) (m : Memory) : (launch x m).stack = Vector.replicate 16 0 := rfl
@[simp] theorem launch_sp (x : Vector Byte 16) (m : Memory) : (launch x m).sp = 0 := rfl
@[simp] theorem launch_mem (x : Vector Byte 16) (m : Memory) : (launch x m).mem = m := rfl
@[simp] theorem launch_status (x : Vector Byte 16) (m : Memory) : (launch x m).status = .running := rfl
@[simp] theorem launch_faultKind (x : Vector Byte 16) (m : Memory) : (launch x m).faultKind = .none := rfl
@[simp] theorem launch_faultWord (x : Vector Byte 16) (m : Memory) : (launch x m).faultWord = 0 := rfl

/-! ## pseudoRaise -/

@[simp] theorem pseudoRaise_x (k : FaultKind) (w : Nat) (s : State) : (pseudoRaise k w s).x = s.x := rfl
@[simp] theorem pseudoRaise_pc (k : FaultKind) (w : Nat) (s : State) : (pseudoRaise k w s).pc = s.pc := rfl
@[simp] theorem pseudoRaise_stack (k : FaultKind) (w : Nat) (s : State) : (pseudoRaise k w s).stack = s.stack := rfl
@[simp] theorem pseudoRaise_sp (k : FaultKind) (w : Nat) (s : State) : (pseudoRaise k w s).sp = s.sp := rfl
@[simp] theorem pseudoRaise_mem (k : FaultKind) (w : Nat) (s : State) : (pseudoRaise k w s).mem = s.mem := rfl
@[simp] theorem pseudoRaise_status (k : FaultKind) (w : Nat) (s : State) : (pseudoRaise k w s).status = .faulted := rfl
@[simp] theorem pseudoRaise_faultKind (k : FaultKind) (w : Nat) (s : State) : (pseudoRaise k w s).faultKind = k := rfl
@[simp] theorem pseudoRaise_faultWord (k : FaultKind) (w : Nat) (s : State) : (pseudoRaise k w s).faultWord = BitVec.ofNat 16 w := rfl

/-! ## Registers -/

@[simp] theorem readReg_writeReg_same (i : RegIdx) (v : Byte) (s : State) : readReg (writeReg i v s) i = v := by
  simp [readReg]

@[simp] theorem readReg_writeReg_other {i j : RegIdx} (h : j ≠ i) (v : Byte) (s : State) :
    readReg (writeReg i v s) j = readReg s j := by
  have : i.val ≠ j.val := fun e => h (Fin.ext e.symm)
  simp [readReg, this]

@[simp] theorem readReg_setPc (t : Word) (s : State) (i : RegIdx) : readReg (setPc t s) i = readReg s i := rfl

@[simp] theorem readReg_advance (s : State) (i : RegIdx) : readReg (advance s) i = readReg s i := rfl

end Sys2Proof.Machine
end

