-- ==== Sys2Proof/Laws/Ops.lean ====
section
/-! SUPPORT. One lemma per shared operation that says everything it can do: push, pop, the adder, the fetch. -/

namespace Sys2Proof.Machine

/-! ## The call stack -/

theorem push_of_room (v : Word) {s : State} (h : s.sp.val < 16) :
    push v s = some { s with stack := s.stack.set s.sp.val v h, sp := ⟨s.sp.val + 1, Nat.succ_lt_succ h⟩ } :=
  dif_pos h

theorem push_of_full (v : Word) {s : State} (h : s.sp.val = 16) : push v s = none :=
  dif_neg (by simp [h])

theorem push_eq_some {v : Word} {s t : State} (h : push v s = some t) :
    ∃ hr : s.sp.val < 16,
      t = { s with stack := s.stack.set s.sp.val v hr, sp := ⟨s.sp.val + 1, Nat.succ_lt_succ hr⟩ } := by
  by_cases hr : s.sp.val < 16
  · exact ⟨hr, by rw [push_of_room v hr] at h; exact (Option.some.inj h).symm⟩
  · rw [push_of_full v (by have := s.sp.isLt; omega)] at h
    cases h

theorem pop_of_nonempty {s : State} (h : s.sp.val ≠ 0) :
    pop s = some (s.stack[s.sp.val - 1], { s with sp := ⟨s.sp.val - 1, by omega⟩ }) :=
  dif_neg h

theorem pop_of_empty {s : State} (h : s.sp.val = 0) : pop s = none := dif_pos h

theorem pop_eq_some {s t : State} {v : Word} (h : pop s = some (v, t)) :
    ∃ _ : s.sp.val ≠ 0, v = s.stack[s.sp.val - 1] ∧ t = { s with sp := ⟨s.sp.val - 1, by omega⟩ } := by
  by_cases hz : s.sp.val = 0
  · rw [pop_of_empty hz] at h
    cases h
  · rw [pop_of_nonempty hz] at h
    obtain ⟨h1, h2⟩ := Prod.mk.inj (Option.some.inj h)
    exact ⟨hz, h1.symm, h2.symm⟩

/-! ## The adder -/

theorem adder_sum_toNat (a b : Byte) : (adder a b).sum.toNat = (a.toNat + b.toNat) % 256 := by
  have := a.isLt
  have := b.isLt
  simp only [adder, BitVec.extractLsb'_toNat, BitVec.toNat_add, BitVec.zeroExtend_eq_setWidth, BitVec.toNat_setWidth]
  simp only [Nat.shiftRight_zero]
  omega

theorem adder_carry_toNat (a b : Byte) : (adder a b).carry.toNat = if 256 ≤ a.toNat + b.toNat then 1 else 0 := by
  have := a.isLt
  have := b.isLt
  simp only [adder, BitVec.extractLsb'_toNat, BitVec.toNat_add, BitVec.zeroExtend_eq_setWidth, BitVec.toNat_setWidth,
    Nat.shiftRight_eq_div_pow]
  split <;> omega

/-! ## The fetch -/

theorem fetchWord_of_inside {s : State} (h : s.pc.toNat ≤ 4094) :
    fetchWord s = some (joinBytes (s.mem.read s.pc.toNat) (s.mem.read (s.pc.toNat + 1))) := by
  have : fetchInBounds s = true := decide_eq_true (show s.pc.toNat + 1 < 4096 by omega)
  simp [fetchWord, this]

theorem fetchWord_of_outside {s : State} (h : 4095 ≤ s.pc.toNat) : fetchWord s = none := by
  have : fetchInBounds s = false := decide_eq_false (show ¬ s.pc.toNat + 1 < 4096 by omega)
  simp [fetchWord, this]

theorem fetchWord_eq_some {s : State} {iw : Word} (h : fetchWord s = some iw) :
    s.pc.toNat ≤ 4094 ∧ iw = joinBytes (s.mem.read s.pc.toNat) (s.mem.read (s.pc.toNat + 1)) := by
  by_cases hp : s.pc.toNat ≤ 4094
  · rw [fetchWord_of_inside hp] at h
    exact ⟨hp, (Option.some.inj h).symm⟩
  · rw [fetchWord_of_outside (by omega)] at h
    cases h

theorem fetchWord_eq_none {s : State} (h : fetchWord s = none) : 4095 ≤ s.pc.toNat := by
  by_cases hp : s.pc.toNat ≤ 4094
  · rw [fetchWord_of_inside hp] at h
    cases h
  · omega

/-- Where the fetch succeeds the advance does not wrap (R11). -/
theorem advance_pc_toNat {s : State} (h : s.pc.toNat ≤ 4094) : (advance s).pc.toNat = s.pc.toNat + 2 := by
  rw [advance_pc, BitVec.toNat_add]
  simp
  omega

/-- A word placed is the word fetched next, in a state that runs. -/
theorem placeWord_fetched (s : State) (iw : Word) (h : s.mem.wf) :
    (placeWord s iw).status = .running ∧ fetchWord (placeWord s iw) = some iw := by
  have key : ∀ b : State, b.status = .running → b.pc.toNat ≤ 4094 → b.mem.wf →
      (({ b with mem := b.mem.writeBlock b.pc.toNat (wordBytes iw) } : State).status = .running ∧
        fetchWord { b with mem := b.mem.writeBlock b.pc.toNat (wordBytes iw) } = some iw) := by
    intro b hr hp hw
    refine ⟨hr, ?_⟩
    rw [fetchWord_of_inside (s := { b with mem := b.mem.writeBlock b.pc.toNat (wordBytes iw) }) hp]
    have hl : b.pc.toNat + (wordBytes iw).length ≤ Config.memSize := show b.pc.toNat + 2 ≤ 4096 by omega
    have e1 : (b.mem.writeBlock b.pc.toNat (wordBytes iw)).read b.pc.toNat = highByte iw := by
      rw [Memory.read_writeBlock hw hl, dif_pos ⟨by omega, by simp [wordBytes]⟩]
      simp [wordBytes]
    have e2 : (b.mem.writeBlock b.pc.toNat (wordBytes iw)).read (b.pc.toNat + 1) = lowByte iw := by
      rw [Memory.read_writeBlock hw hl, dif_pos ⟨by omega, by simp [wordBytes]⟩]
      simp [wordBytes]
    simp only [e1, e2, joinBytes_highByte_lowByte]
  unfold placeWord
  by_cases hc : canFetch s = true
  · simp only [hc, if_true]
    simp only [canFetch, fetchInBounds, Bool.and_eq_true, decide_eq_true_eq] at hc
    exact key s hc.1 (by have : s.pc.toNat + 1 < 4096 := hc.2; omega) h
  · simp only [hc, if_false, Bool.false_eq_true]
    exact key (launch s.x s.mem) rfl (by simp) h

end Sys2Proof.Machine
end

