-- ==== Sys2Proof/Laws/PerInstr.lean ====
section
/-! SUPPORT. The per-instruction family: the word of an instruction is a word of its own row of the opcode map (spec
30_encoding.md R38). -/

namespace Sys2Proof.Laws.EncodeMatchesRow

def Statement (i : Instr) : Prop := i.row.matchesWord (encode i) = true

theorem halt : Statement .halt := (rowHalt_matches _).2 rfl

theorem ret : Statement .ret := (rowRet_matches _).2 rfl

theorem call (nnn : Target) : Statement (.call nnn) := by
  have := nnn.isLt
  exact (rowCall_matches _).2 (by rw [encode_call_toNat]; omega)

theorem add (xi yi : RegIdx) : Statement (.add xi yi) := by
  have := xi.isLt
  have := yi.isLt
  exact (rowAdd_matches _).2 (by rw [encode_add_toNat]; omega)

end Sys2Proof.Laws.EncodeMatchesRow
end

