-- ==== Sys2Proof/Laws/Step.lean ====
section
/-! SUPPORT. What a handler, a step and a run can do, said once. -/

namespace Sys2Proof.Machine

/-! ## Handlers -/

theorem execCall_of_room (nnn : Target) {s : State} (h : s.sp.val < 16) :
    execCall nnn s =
      .next { s with
        stack := s.stack.set s.sp.val s.pc h
        sp := ⟨s.sp.val + 1, Nat.succ_lt_succ h⟩
        pc := addrOperand nnn } := by
  simp only [execCall, push_of_room s.pc h]
  rfl

theorem execCall_of_full (nnn : Target) {s : State} (h : s.sp.val = 16) :
    execCall nnn s = .next (raise .stackOverflow 0 s) := by
  simp only [execCall, push_of_full s.pc h]

theorem execRet_of_nonempty {s : State} (h : s.sp.val ≠ 0) :
    execRet s = .next { s with sp := ⟨s.sp.val - 1, by omega⟩, pc := s.stack[s.sp.val - 1] } := by
  simp only [execRet, pop_of_nonempty h]
  rfl

theorem execRet_of_empty {s : State} (h : s.sp.val = 0) : execRet s = .next (raise .stackUnderflow 0 s) := by
  simp only [execRet, pop_of_empty h]

/-- Everything a handler can answer. -/
theorem exec_cases {i : Instr} {s t : State} (h : exec i s = .next t) :
    (i = .halt ∧ t = haltRun s) ∨
    (∃ xi yi, i = .add xi yi ∧
      t = writeCarry (adder (readReg s xi) (readReg s yi)).carry
        (writeReg xi (adder (readReg s xi) (readReg s yi)).sum s)) ∨
    (∃ nnn, ∃ hr : s.sp.val < 16, i = .call nnn ∧
      t = { s with
        stack := s.stack.set s.sp.val s.pc hr
        sp := ⟨s.sp.val + 1, Nat.succ_lt_succ hr⟩
        pc := addrOperand nnn }) ∨
    (∃ nnn, i = .call nnn ∧ s.sp.val = 16 ∧ t = raise .stackOverflow 0 s) ∨
    (∃ _ : s.sp.val ≠ 0, i = .ret ∧
      t = { s with sp := ⟨s.sp.val - 1, by omega⟩, pc := s.stack[s.sp.val - 1] }) ∨
    (i = .ret ∧ s.sp.val = 0 ∧ t = raise .stackUnderflow 0 s) := by
  cases i with
  | halt => exact .inl ⟨rfl, by simpa [exec, execHalt] using h.symm⟩
  | add xi yi => exact .inr (.inl ⟨xi, yi, rfl, by simpa [exec, execAdd, regOperand] using h.symm⟩)
  | call nnn =>
    by_cases hr : s.sp.val < 16
    · rw [exec, execCall_of_room nnn hr] at h
      exact .inr (.inr (.inl ⟨nnn, hr, rfl, (Host.Outcome.next.inj h).symm⟩))
    · have hf : s.sp.val = 16 := by have := s.sp.isLt; omega
      rw [exec, execCall_of_full nnn hf] at h
      exact .inr (.inr (.inr (.inl ⟨nnn, rfl, hf, (Host.Outcome.next.inj h).symm⟩)))
  | ret =>
    by_cases hz : s.sp.val = 0
    · rw [exec, execRet_of_empty hz] at h
      exact .inr (.inr (.inr (.inr (.inr ⟨rfl, hz, (Host.Outcome.next.inj h).symm⟩))))
    · rw [exec, execRet_of_nonempty hz] at h
      exact .inr (.inr (.inr (.inr (.inl ⟨hz, rfl, (Host.Outcome.next.inj h).symm⟩))))

/-! ## The step -/

theorem step_of_running {s : State} (h : s.status = .running) : step s = cycle s := by
  simp [step, h]

theorem step_of_fetched {s : State} {iw : Word} (h : s.status = .running) (hf : fetchWord s = some iw) :
    step s = dispatchWord iw (advance s) := by
  simp [step_of_running h, cycle, hf]

theorem step_of_halted {s : State} (h : s.status = .halted) : step s = .fault .noStepWhenHalted := by
  simp [step, h]

theorem step_of_faulted {s : State} (h : s.status = .faulted) : step s = .fault .noStepWhenFaulted := by
  simp [step, h]

/-- Everything a step can answer when it answers a next state: the fetch faulted, the word was no instruction, or the
handler of the decoded instruction answered on the advanced state. -/
theorem step_cases {s t : State} (h : step s = .next t) :
    s.status = .running ∧
    ((fetchWord s = none ∧ t = raise .outOfBoundsFetch 0 s) ∨
     ∃ iw, fetchWord s = some iw ∧
      ((decodeWord iw = .error (.unimplemented iw) ∧ t = raise .unimplementedInstruction iw (advance s)) ∨
       ∃ i, decodeWord iw = .ok i ∧ exec i (advance s) = .next t)) := by
  have hrun : s.status = .running := by
    cases hs : s.status with
    | running => rfl
    | halted => rw [step_of_halted hs] at h; cases h
    | faulted => rw [step_of_faulted hs] at h; cases h
  refine ⟨hrun, ?_⟩
  cases hf : fetchWord s with
  | none =>
    simp only [step_of_running hrun, cycle, hf] at h
    exact .inl ⟨rfl, (Host.Outcome.next.inj h).symm⟩
  | some iw =>
    rw [step_of_fetched hrun hf] at h
    refine .inr ⟨iw, rfl, ?_⟩
    unfold dispatchWord at h
    cases hd : decodeWord iw with
    | ok i => exact .inr ⟨i, rfl, by simpa [hd] using h⟩
    | error e =>
      have he : e = .unimplemented iw := by
        rcases decodeWord_cases iw with h' | h' | h' | h' | h' <;> rw [hd] at h' <;> simp at h'
        exact h'.1
      subst he
      simp only [hd] at h
      exact .inl ⟨rfl, (Host.Outcome.next.inj h).symm⟩

/-- A handler always answers a next state. -/
theorem exec_next (i : Instr) (s : State) : ∃ t, exec i s = .next t := by
  cases i with
  | halt => exact ⟨_, rfl⟩
  | add xi yi => exact ⟨_, rfl⟩
  | call nnn => simp only [exec, execCall]; cases push s.pc s <;> exact ⟨_, rfl⟩
  | ret => simp only [exec, execRet]; cases pop s <;> exact ⟨_, rfl⟩

/-- A RUNNING state always has a step. -/
theorem exists_step_of_running {s : State} (h : s.status = .running) : ∃ t, step s = .next t := by
  rw [step_of_running h, cycle]
  cases fetchWord s with
  | none => exact ⟨_, rfl⟩
  | some iw =>
    simp only [dispatchWord]
    cases decodeWord iw with
    | ok i => exact exec_next i _
    | error e => exact ⟨_, rfl⟩

/-! ## Runs -/

theorem run_of_next {s t : State} (h : step s = .next t) (n : Nat) : run (n + 1) s = run n t := by
  simp [run, h]

theorem run_of_ended {s : State} (h : s.ended) (n : Nat) : run n s = s := by
  cases n with
  | zero => rfl
  | succ n =>
    cases hs : s.status with
    | running => exact absurd hs h
    | halted => simp [run, step_of_halted hs]
    | faulted => simp [run, step_of_faulted hs]

theorem run_add (n m : Nat) (s : State) : run (n + m) s = run m (run n s) := by
  induction n generalizing s with
  | zero => simp [run]
  | succ n ih =>
    rw [Nat.succ_add]
    cases hs : step s with
    | next t => rw [run_of_next hs, run_of_next hs, ih]
    | fault f =>
      have he : s.ended := by
        intro hr
        obtain ⟨t, ht⟩ := exists_step_of_running hr
        rw [hs] at ht
        cases ht
      rw [run_of_ended he, run_of_ended he, run_of_ended he]
    | refused r =>
      have he : s.ended := by
        intro hr
        obtain ⟨t, ht⟩ := exists_step_of_running hr
        rw [hs] at ht
        cases ht
      rw [run_of_ended he, run_of_ended he, run_of_ended he]

/-- The run one step longer, where its end still has a step. -/
theorem run_succ_of_next {s t : State} {n : Nat} (h : step (run n s) = .next t) : run (n + 1) s = t := by
  rw [run_add n 1 s, run_of_next h]
  rfl

/-- Any property that every step keeps, every run keeps. -/
theorem run_keeps {P : State → Prop} (hstep : ∀ s t, P s → step s = .next t → P t) {s : State} (h : P s) (n : Nat) :
    P (run n s) := by
  induction n generalizing s with
  | zero => exact h
  | succ n ih =>
    cases hs : step s with
    | next t => rw [run_of_next hs]; exact ih (hstep s t h hs)
    | fault f => simpa [run, hs] using h
    | refused r => simpa [run, hs] using h

end Sys2Proof.Machine
end

