-- ==== Sys2Proof/Tests/Slice0.lean ====
section
/-! SUPPORT. Tests. Expected values come from spec 95_test_vectors.md (V and P numbers) or from the rule named; a witness
meets all hypotheses of the statement it is named after. -/

namespace Sys2Proof.Tests

open Sys2Proof Sys2Proof.Machine

/-! ## Helpers -/

/-- A launch state with a few bytes and registers seeded. -/
def boot (regs : List (RegIdx × Byte)) (addr : Nat) (bytes : List Byte) : State :=
  let s := regs.foldl (fun s r => writeReg r.1 r.2 s) State.reset
  { s with mem := s.mem.writeBlock addr bytes }

/-- A test on the next state. -/
def after (o : Host.Outcome State Fault Refusal) (p : State → Bool) : Bool :=
  match o with
  | .next t => p t
  | .fault _ => false
  | .refused _ => false

/-- Sixteen return addresses outstanding, running at an address with the given bytes. -/
def full (pc : Word) (bytes : List Byte) : State :=
  { boot [] pc.toNat bytes with pc := pc, sp := 16, stack := Vector.replicate 16 0x0206 }

/-- One return address outstanding. -/
def one (pc : Word) (ra : Word) (bytes : List Byte) : State :=
  { boot [] pc.toNat bytes with pc := pc, sp := 1, stack := (Vector.replicate 16 0).set 0 ra }

/-! ## WellFormed: an ill-formed term for each check, refused -/

theorem test_seed_block_past_the_end_is_ill_formed : (Seed.mem 4095 [1, 2]).wellFormed = false := by decide
theorem test_seed_block_to_the_end_is_well_formed : (Seed.mem 4094 [1, 2]).wellFormed = true := by decide
theorem test_ill_formed_seed_is_refused : seed (.mem 4095 [1, 2]) State.reset = .refused .seedOutOfRange := by rfl
theorem test_every_instruction_well_formed : (Instr.add 15 15).wellFormed = true := by decide

/-! ## Decoding: words written out bit by bit from the patterns of R38 -/

theorem test_decode_halt : decodeWord 0b0000000000000000 = .ok .halt := by rfl
theorem test_decode_ret : decodeWord 0b0000000011101110 = .ok .ret := by rfl
theorem test_decode_call : decodeWord 0b0010000100000000 = .ok (.call 0x100) := by rfl
theorem test_decode_call_V55 : decodeWord 0x20EE = .ok (.call 0x0EE) := by rfl
theorem test_decode_add_V18 : decodeWord 0b1000101010110100 = .ok (.add 10 11) := by rfl
theorem test_decode_add_V56 : decodeWord 0b1000000000010100 = .ok (.add 0 1) := by rfl
theorem test_reject_V59 : decodeWord 0x0001 = .error (.unimplemented 0x0001) := by rfl
theorem test_reject_V61_V62_V63 :
    [0x00EF, 0x0EEE, 0x0100].map decodeWord =
      [.error (.unimplemented 0x00EF), .error (.unimplemented 0x0EEE), .error (.unimplemented 0x0100)] := by rfl
theorem test_reject_V64_V65_V66 :
    [0x1100, 0x3000, 0x8015].map decodeWord =
      [.error (.unimplemented 0x1100), .error (.unimplemented 0x3000), .error (.unimplemented 0x8015)] := by rfl
theorem test_reject_V67_V68 :
    [0x8010, 0x9014, 0xFFFF].map decodeWord =
      [.error (.unimplemented 0x8010), .error (.unimplemented 0x9014), .error (.unimplemented 0xFFFF)] := by rfl
theorem test_decode_truncated : decodeBytes [0x80] = .error .truncated := by rfl
theorem test_encode_words :
    [.halt, .ret, .call 0xFFE, .add 11 10].map encode = [0x0000, 0x00EE, 0x2FFE, 0x8BA4] := by decide
theorem test_table_word : decodeTableWord 16 0x8AB4 = some (.add 10 11) := by rfl
theorem test_opcode_map_is_disjoint_on_its_patterns :
    opcodeMap.Pairwise (fun r q => r.matchesWord q.pattern = false) := by decide

/-! ## ADD -/

theorem test_add_V8 : after (step (boot [(0, 200), (1, 100)] 0 [0x80, 0x14]))
    (fun t => t.x[0] == 44 && t.x[1] == 100 && t.x[15] == 1 && t.pc == 2) = true := by decide
theorem test_add_flag_destination_V13 : after (step (boot [(15, 200), (1, 100)] 0 [0x8F, 0x14]))
    (fun t => t.x[15] == 1 && t.x[1] == 100) = true := by decide
theorem test_add_operand_order_V19 : after (step (boot [(10, 0x12), (11, 0xF0)] 0 [0x8B, 0xA4]))
    (fun t => t.x[11] == 0x02 && t.x[10] == 0x12 && t.x[15] == 1) = true := by decide

/-! ## CALL, RET -/

theorem test_call_last_word_V36 : after (step { boot [] 0xFFE [0x20, 0x00] with pc := 0xFFE })
    (fun t => t.stack[0] == 0x1000 && t.sp == 1 && t.pc == 0) = true := by decide
theorem test_call_overflow_V33 : after (step (full 0x300 [0x24, 0x00]))
    (fun t => t.status == .faulted && t.faultKind == .stackOverflow && t.faultWord == 0 && t.pc == 0x302 &&
      t.sp == 16) = true := by decide
theorem test_ret_V31 : after (step (one 0x100 0x0002 [0x00, 0xEE]))
    (fun t => t.sp == 0 && t.pc == 2 && t.stack[0] == 2) = true := by decide
theorem test_ret_underflow_V35 : after (step (boot [] 0 [0x00, 0xEE]))
    (fun t => t.status == .faulted && t.faultKind == .stackUnderflow && t.pc == 2 && t.sp == 0) = true := by decide

/-! ## HALT, fetch, unimplemented words, reset -/

theorem test_halt_last_word_V42 : after (step { State.reset with pc := 4094 })
    (fun t => t.status == .halted && t.pc == 4096) = true := by decide
theorem test_halted_has_no_step_V43 : step { State.reset with status := .halted } = .fault .noStepWhenHalted := by rfl
theorem test_fetch_byte_order_V70 : fetchWord (boot [] 0 [0x80, 0x14]) = some 0x8014 := by decide
theorem test_fetch_odd_V72 : fetchWord { boot [] 5 [0x80, 0x14] with pc := 5 } = some 0x8014 := by decide
theorem test_fetch_out_of_bounds_V74 : after (step { State.reset with pc := 4095 })
    (fun t => t.faultKind == .outOfBoundsFetch && t.pc == 4095 && t.faultWord == 0) = true := by decide
theorem test_fetch_out_of_bounds_V76 : after (step { State.reset with pc := 65535 })
    (fun t => t.faultKind == .outOfBoundsFetch && t.pc == 65535) = true := by decide
theorem test_unimplemented_P8 : after (step (boot [(0, 7), (1, 3)] 0 [0x80, 0x15, 0x80, 0x14]))
    (fun t => t.faultKind == .unimplementedInstruction && t.faultWord == 0x8015 && t.pc == 2 && t.x[0] == 7) = true := by
  decide
theorem test_empty_memory_P12 : after (step State.reset) (fun t => t.status == .halted && t.pc == 2) = true := by decide
theorem test_reset_from_faulted_V82 : hostReset (raise .stackOverflow 0 (full 0x300 [])) = State.reset := by rfl
theorem test_placed_word_runs : after (step (State.reset.withFetchWord 16 0x2FFF))
    (fun t => t.pc == 0xFFF && t.sp == 1) = true := by decide
theorem test_placed_word_runs_after_a_halt : after (step ({ State.reset with status := .halted, pc := 4096 }.withFetchWord 16 0x2FFF))
    (fun t => t.pc == 0xFFF && t.sp == 1) = true := by decide

/-! ## Witnesses: a state and operands that meet all hypotheses of a statement -/

theorem witness_EncodeOfDecodeIsTheWord : decodeWord 0x8FF4 = .ok (.add 15 15) := by rfl

theorem witness_FetchReadsHighByteFirst :
    ({ boot [] 4094 [0x80, 0x14] with pc := 4094 } : State).pc.toNat + 1 < 4096 := by decide

theorem witness_FetchOutOfBoundsFaultsInPlace_inside : ({ State.reset with pc := 4094 } : State).pc.toNat < 4095 := by
  decide
theorem witness_FetchOutOfBoundsFaultsInPlace_outside :
    ({ State.reset with pc := 4095 } : State).status = .running ∧ 4095 ≤ ({ State.reset with pc := 4095 } : State).pc.toNat := by
  decide

theorem witness_StepReadsOnlyTheFetchedBytes :
    (⟨[(0, 0x80), (1, 0x14), (9, 7)]⟩ : Memory).read 0 = (boot [] 0 [0x80, 0x14]).mem.read 0 ∧
    (⟨[(0, 0x80), (1, 0x14), (9, 7)]⟩ : Memory).read 1 = (boot [] 0 [0x80, 0x14]).mem.read 1 ∧
    (boot [] 0 [0x80, 0x14]).pc.toNat = 0 ∧ after (step (boot [] 0 [0x80, 0x14])) (fun _ => true) = true := by decide

theorem witness_StepRunsTheDecodedInstruction :
    (boot [] 0 [0x80, 0x14]).status = .running ∧ (boot [] 0 [0x80, 0x14]).pc.toNat + 1 < 4096 ∧
    decodeBytes [(boot [] 0 [0x80, 0x14]).mem.read 0, (boot [] 0 [0x80, 0x14]).mem.read 1] = .ok (.add 0 1, []) ∧
    (Instr.add 0 1).wellFormed = true := ⟨rfl, by decide, rfl, rfl⟩

theorem witness_StepExistsExactlyWhenRunning :
    State.reset.status = .running ∧ (haltRun State.reset).status = .halted ∧
    (raise .stackOverflow 0 State.reset).status = .faulted := by decide

theorem witness_StepIsThePseudocode : (boot [] 0 [0x2F, 0xFF]).status = .running := by decide

theorem witness_PcAfterEachOutcome_outside : after (step { State.reset with pc := 4095 }) (fun _ => true) = true ∧
    fetchWord { State.reset with pc := 4095 } = none := by decide
theorem witness_PcAfterEachOutcome_halt : after (step State.reset) (fun _ => true) = true ∧
    fetchWord State.reset = some 0x0000 ∧ decodeWord 0x0000 = .ok .halt := ⟨by decide, by decide, rfl⟩
theorem witness_PcAfterEachOutcome_add : fetchWord (boot [] 0 [0x80, 0x14]) = some 0x8014 ∧
    decodeWord 0x8014 = .ok (.add 0 1) := ⟨by decide, rfl⟩
theorem witness_PcAfterEachOutcome_call : fetchWord (boot [] 0 [0x2F, 0xFF]) = some 0x2FFF ∧
    decodeWord 0x2FFF = .ok (.call 0xFFF) ∧ (boot [] 0 [0x2F, 0xFF]).sp.val < 16 := ⟨by decide, rfl, by decide⟩
theorem witness_PcAfterEachOutcome_call_full : fetchWord (full 0x300 [0x24, 0x00]) = some 0x2400 ∧
    (full 0x300 [0x24, 0x00]).sp.val = 16 := by decide
theorem witness_PcAfterEachOutcome_ret : fetchWord (one 0x100 2 [0x00, 0xEE]) = some 0x00EE ∧
    decodeWord 0x00EE = .ok .ret ∧ (one 0x100 2 [0x00, 0xEE]).sp.val ≠ 0 := ⟨by decide, rfl, by decide⟩
theorem witness_PcAfterEachOutcome_ret_empty : fetchWord (boot [] 0 [0x00, 0xEE]) = some 0x00EE ∧
    (boot [] 0 [0x00, 0xEE]).sp.val = 0 := by decide
theorem witness_PcAfterEachOutcome_unimplemented : fetchWord (boot [] 0 [0x80, 0x15]) = some 0x8015 ∧
    decodeWord 0x8015 = .error (.unimplemented 0x8015) := ⟨by decide, rfl⟩

theorem witness_UnimplementedWordEndsTheRun :
    (boot [] 0 [0x80, 0x15]).status = .running ∧ fetchWord (boot [] 0 [0x80, 0x15]) = some 0x8015 ∧
    (0x8015 : Word) ≠ 0x0000 ∧ (0x8015 : Word) ≠ 0x00EE ∧ (0x8015 : Word) &&& 0xF000 ≠ 0x2000 ∧
    (0x8015 : Word) &&& 0xF00F ≠ 0x8004 := by decide

theorem witness_HaltEndsTheRun : State.reset.status = .running ∧ fetchWord State.reset = some 0x0000 := by decide

theorem witness_AddWritesSumThenCarry_sum : (0 : RegIdx) ≠ 15 ∧ (2 : RegIdx) ≠ 0 ∧ (2 : RegIdx) ≠ 15 := by decide

theorem witness_AdderGivesTheTrueSum : (14 : RegIdx) ≠ 15 := by decide

theorem witness_AddIgnoresTheOldFlag : (14 : RegIdx) ≠ 15 ∧ (0 : RegIdx) ≠ 15 := by decide

theorem witness_CallPushesAndJumps : ({ State.reset with sp := 15 } : State).sp.val < 16 := by decide

theorem witness_CallOnFullStackFaults :
    (full 0x300 [0x24, 0x00]).sp.val = 16 ∧ (full 0x300 [0x24, 0x00]).status = .running ∧
    fetchWord (full 0x300 [0x24, 0x00]) = some (encode (.call 0x400)) := by decide

theorem witness_RetPopsAndJumps : (full 0x300 [0x00, 0xEE]).sp.val ≠ 0 ∧ State.reset.sp.val = 0 := by decide

theorem witness_RetOnEmptyStackFaults :
    (boot [] 0 [0x00, 0xEE]).status = .running ∧ fetchWord (boot [] 0 [0x00, 0xEE]) = some 0x00EE ∧
    (boot [] 0 [0x00, 0xEE]).sp.val = 0 := by decide

/-- CALL 0x002 at address 0 and RET at address 2. -/
def callRet : State := boot [] 0 [0x20, 0x02, 0x00, 0xEE]

theorem witness_CallThenRetComesBack :
    callRet.sp.val < 16 ∧ callRet.status = .running ∧ fetchWord callRet = some (encode (.call 2)) ∧
    (2 : Target).toNat ≤ 4094 ∧ callRet.mem.read 2 = 0x00 ∧ callRet.mem.read 3 = 0xEE := by decide

/-- CALL 0xFFE at address 0 and RET in the last word of memory. -/
def callRetLast : State := { boot [] 4094 [0x00, 0xEE] with
  mem := ((boot [] 4094 [0x00, 0xEE]).mem.writeBlock 0 [0x2F, 0xFE]), sp := 15 }

theorem witness_CallThenRetComesBack_boundary :
    callRetLast.sp.val < 16 ∧ callRetLast.status = .running ∧ fetchWord callRetLast = some (encode (.call 0xFFE)) ∧
    (0xFFE : Target).toNat ≤ 4094 ∧ callRetLast.mem.read 4094 = 0x00 ∧ callRetLast.mem.read 4095 = 0xEE := by decide

theorem witness_BalancedSubroutineComesBack :
    fetchWord callRet = some 0x2002 ∧ decodeWord 0x2002 = .ok (.call 2) ∧
    ∃ t u, step callRet = .next t ∧ (∀ m, m ≤ 0 → callRet.sp.val < (run m t).sp.val) ∧
      step (run 0 t) = .next u ∧ u.sp.val = callRet.sp.val :=
  ⟨by decide, rfl, _, _, rfl, fun m hm => by rw [Nat.le_zero.1 hm]; decide, rfl, by decide⟩

theorem witness_StepKeepsTheInvariant : callRet.Inv ∧ after (step callRet) (fun _ => true) = true := by decide

theorem witness_LaunchMeetsTheInvariant : (boot [] 0 [0x80, 0x14, 0x00, 0x00, 0xFF]).mem.wf := by decide

theorem witness_PcStaysEvenExactlyByEvenCalls : (one 0x100 2 [0x00, 0xEE]).pc.toNat % 2 = 0 ∧
    ∀ i : Fin 16, i.val < (one 0x100 2 [0x00, 0xEE]).sp.val → (one 0x100 2 [0x00, 0xEE]).stack[i.val].toNat % 2 = 0 := by
  decide
theorem witness_PcStaysEvenExactlyByEvenCalls_call : callRet.status = .running ∧ fetchWord callRet = some 0x2002 ∧
    decodeWord 0x2002 = .ok (.call 2) ∧ callRet.sp.val < 16 := ⟨rfl, by decide, rfl, by decide⟩

theorem witness_OnlyAddWritesRegisters : after (step (boot [(0, 5), (1, 10)] 0 [0x80, 0x14]))
    (fun t => readReg t 0 != readReg (boot [(0, 5), (1, 10)] 0 [0x80, 0x14]) 0) = true := by decide

theorem witness_OnlyCallWritesTheStack : after (step callRet) (fun t => t.stack[0] != callRet.stack[0]) = true := by
  decide

theorem witness_SpCountsCallsAndReturns : after (step callRet) (fun t => t.sp.val == callRet.sp.val + 1) = true ∧
    after (step (one 0x100 2 [0x00, 0xEE])) (fun t => t.sp.val + 1 == (one 0x100 2 [0x00, 0xEE]).sp.val) = true := by
  decide

theorem witness_FaultsArePrecise_and_EachFaultHasItsCause :
    after (step { State.reset with pc := 4095 })
      (fun t => t.status == .faulted && t.faultKind == .outOfBoundsFetch) = true ∧
    after (step (boot [] 0 [0x80, 0x15]))
      (fun t => t.status == .faulted && t.faultKind == .unimplementedInstruction) = true ∧
    after (step (full 0x300 [0x24, 0x00])) (fun t => t.status == .faulted && t.faultKind == .stackOverflow) = true ∧
    after (step (boot [] 0 [0x00, 0xEE])) (fun t => t.status == .faulted && t.faultKind == .stackUnderflow) = true := by
  decide

theorem witness_OnlyTheHaltWordHalts : after (step State.reset) (fun t => t.status == .halted) = true := by decide

theorem witness_EveryRunEnds : State.reset.Inv := by decide

theorem witness_EndedRunsStayEnded : (run 1 State.reset).ended := by decide

/-- A stale entry that a RET left behind, and the same state without it. -/
theorem witness_StaleStackEntriesAreUnobservable :
    ({ one 0x100 2 [] with sp := 0 } : State).agreeUpToStale { boot [] 0x100 [] with pc := 0x100 } ∧
    ({ one 0x100 2 [] with sp := 0 } : State) ≠ { boot [] 0x100 [] with pc := 0x100 } := by decide

theorem witness_SeedingWritesWhatTheHostSays : atLaunch (boot [(3, 9)] 7 [1]) = true ∧ (boot [(3, 9)] 7 [1]).mem.wf ∧
    4094 + ([0x80, 0x14] : List Byte).length ≤ 4096 := by decide

theorem witness_HostHasNoMoveDuringTheRun : callRet.Inv ∧ after (step callRet) (fun t => !atLaunch t) = true ∧
    atLaunch State.reset = true ∧ 4096 < 4095 + ([1, 2] : List Byte).length := by decide

theorem witness_ReadOutShowsTheEndedState : State.reset.status = .running ∧ (haltRun State.reset).ended := by decide

end Sys2Proof.Tests
end

/-! # What a step changes of the state (spec 10_state.md)

One inversion of `step` with a constructor per outcome; from it what a step does to `pc` and the call stack, the invariants
of R20, and the rules of R8, R10, R12, R13, R15 and R19. -/

section
namespace Sys2Proof.Machine

/-! ## Decoded words as numbers -/

theorem eq_zero_of_decodeWord_halt {iw : Word} (h : decodeWord iw = .ok .halt) : iw = 0 := by
  rcases decodeWord_cases iw with ⟨-, hw⟩ | ⟨hd, -⟩ | ⟨hd, -⟩ | ⟨hd, -⟩ | ⟨hd, -⟩
  · exact BitVec.eq_of_toNat_eq hw
  all_goals simp [hd] at h

theorem group_of_decodeWord_call {iw : Word} {nnn : Target} (h : decodeWord iw = .ok (.call nnn)) :
    iw.toNat / 4096 = 2 := by
  rcases decodeWord_cases iw with ⟨hd, -⟩ | ⟨hd, -⟩ | ⟨-, hw⟩ | ⟨hd, -⟩ | ⟨hd, -⟩
  case inr.inr.inl => exact hw
  all_goals simp [hd] at h

theorem ne_zero_of_decodeWord_error {iw : Word} (h : decodeWord iw = .error (.unimplemented iw)) : iw ≠ 0 := by
  rintro rfl
  cases (show decodeWord 0 = .ok .halt from rfl).symm.trans h

/-- The byte at `pc` shows that a CALL was fetched there: its upper half is the group. -/
theorem group_of_fetched_call {s : State} {iw : Word} {nnn : Target} (hf : fetchWord s = some iw)
    (hd : decodeWord iw = .ok (.call nnn)) : (s.mem.read s.pc.toNat).toNat / 16 = 2 := by
  have hgroup := group_of_decodeWord_call hd
  obtain ⟨-, rfl⟩ := fetchWord_eq_some hf
  have hlo := (s.mem.read (s.pc.toNat + 1)).isLt
  rw [joinBytes_toNat] at hgroup
  omega

theorem addrOperand_toNat (nnn : Target) : (addrOperand nnn).toNat = nnn.toNat := by
  have := nnn.isLt
  simp only [addrOperand, BitVec.zeroExtend_eq_setWidth, BitVec.toNat_setWidth]
  omega

/-- The address after a fetched word does not wrap (R11). -/
theorem pc_add_two_toNat {s : State} {iw : Word} (hf : fetchWord s = some iw) :
    s.pc.toNat ≤ 4094 ∧ (s.pc + 2).toNat = s.pc.toNat + 2 :=
  have hp := (fetchWord_eq_some hf).1
  ⟨hp, advance_pc_toNat hp⟩

/-! ## The outcomes of a step -/

/-- What the step of a RUNNING state ends in, an outcome of R44's table per constructor. -/
inductive StepOutcome (s : State) : State → Prop
  | fetchFault (hf : fetchWord s = none) : StepOutcome s (raise .outOfBoundsFetch 0 s)
  | unimplemented {iw : Word} (hf : fetchWord s = some iw) (hd : decodeWord iw = .error (.unimplemented iw)) :
      StepOutcome s (raise .unimplementedInstruction iw (advance s))
  | halt {iw : Word} (hf : fetchWord s = some iw) (hd : decodeWord iw = .ok .halt) :
      StepOutcome s (haltRun (advance s))
  | add {iw : Word} {xi yi : RegIdx} (hf : fetchWord s = some iw) (hd : decodeWord iw = .ok (.add xi yi)) :
      StepOutcome s (writeCarry (adder (readReg s xi) (readReg s yi)).carry
        (writeReg xi (adder (readReg s xi) (readReg s yi)).sum (advance s)))
  | call {iw : Word} {nnn : Target} (hf : fetchWord s = some iw) (hd : decodeWord iw = .ok (.call nnn))
      (hroom : s.sp.val < 16) :
      StepOutcome s { s with
        stack := s.stack.set s.sp.val (s.pc + 2) hroom
        sp := ⟨s.sp.val + 1, Nat.succ_lt_succ hroom⟩
        pc := addrOperand nnn }
  | callFull {iw : Word} {nnn : Target} (hf : fetchWord s = some iw) (hd : decodeWord iw = .ok (.call nnn))
      (hfull : s.sp.val = 16) : StepOutcome s (raise .stackOverflow 0 (advance s))
  | ret {iw : Word} (hf : fetchWord s = some iw) (hd : decodeWord iw = .ok .ret) (hlive : s.sp.val ≠ 0) :
      StepOutcome s { s with sp := ⟨s.sp.val - 1, by omega⟩, pc := s.stack[s.sp.val - 1] }
  | retEmpty {iw : Word} (hf : fetchWord s = some iw) (hd : decodeWord iw = .ok .ret) (hempty : s.sp.val = 0) :
      StepOutcome s (raise .stackUnderflow 0 (advance s))

/-- Every step ends in one of the outcomes. -/
theorem stepOutcome_of_step {s t : State} (h : step s = .next t) : StepOutcome s t := by
  obtain ⟨-, ⟨hf, rfl⟩ | ⟨iw, hf, ⟨hd, rfl⟩ | ⟨i, hd, he⟩⟩⟩ := step_cases h
  · exact .fetchFault hf
  · exact .unimplemented hf hd
  · obtain ⟨rfl, rfl⟩ | ⟨xi, yi, rfl, rfl⟩ | ⟨nnn, hroom, rfl, rfl⟩ | ⟨nnn, rfl, hfull, rfl⟩ |
      ⟨hlive, rfl, rfl⟩ | ⟨rfl, hempty, rfl⟩ := exec_cases he
    · exact .halt hf hd
    · exact .add hf hd
    · exact .call hf hd hroom
    · exact .callFull hf hd hfull
    · exact .ret hf hd hlive
    · exact .retEmpty hf hd hempty

theorem step_eq_exec {s : State} {iw : Word} {i : Instr} (hrun : s.status = .running) (hf : fetchWord s = some iw)
    (hd : decodeWord iw = .ok i) : step s = exec i (advance s) := by
  rw [step_of_fetched hrun hf, dispatchWord, hd]

/-- Every outcome whose condition holds is what the step of a RUNNING state answers. -/
theorem StepOutcome.step_eq {s t : State} (hrun : s.status = .running) (h : StepOutcome s t) : step s = .next t := by
  cases h with
  | fetchFault hf => rw [step_of_running hrun, cycle, hf]
  | unimplemented hf hd => rw [step_of_fetched hrun hf, dispatchWord, hd]
  | halt hf hd => exact step_eq_exec hrun hf hd
  | add hf hd => exact step_eq_exec hrun hf hd
  | call hf hd hroom => exact (step_eq_exec hrun hf hd).trans (execCall_of_room _ (s := advance s) hroom)
  | callFull hf hd hfull => exact (step_eq_exec hrun hf hd).trans (execCall_of_full _ (s := advance s) hfull)
  | ret hf hd hlive => exact (step_eq_exec hrun hf hd).trans (execRet_of_nonempty (s := advance s) hlive)
  | retEmpty hf hd hempty => exact (step_eq_exec hrun hf hd).trans (execRet_of_empty (s := advance s) hempty)

/-- A step has one outcome. -/
theorem StepOutcome.eq_of_step {s t u : State} (hu : StepOutcome s u) (ht : step s = .next t) : t = u :=
  Host.Outcome.next.inj (ht.symm.trans (hu.step_eq (step_cases ht).1))

/-! ## What a step does to `pc`, the stack and memory -/

/-- The three ways a step moves `pc` and the stack: `pc` by 0 or 2 and the stack not at all, a CALL that goes through, a RET
that goes through. -/
inductive StackMove (s t : State) : Prop
  | none (hstack : t.stack = s.stack) (hsp : t.sp = s.sp)
      (hpc : t.pc.toNat = s.pc.toNat ∨ s.pc.toNat ≤ 4094 ∧ t.pc.toNat = s.pc.toNat + 2)
  | call {iw : Word} {nnn : Target} (hf : fetchWord s = some iw) (hd : decodeWord iw = .ok (.call nnn))
      (hroom : s.sp.val < 16) (hstack : t.stack = s.stack.set s.sp.val (s.pc + 2) hroom)
      (hsp : t.sp.val = s.sp.val + 1) (hpc : t.pc.toNat = nnn.toNat)
  | ret {iw : Word} (hf : fetchWord s = some iw) (hd : decodeWord iw = .ok .ret) (hlive : s.sp.val ≠ 0)
      (hstack : t.stack = s.stack) (hsp : t.sp.val + 1 = s.sp.val) (hpc : t.pc = s.stack[s.sp.val - 1])

theorem stackMove_of_step {s t : State} (h : step s = .next t) : StackMove s t := by
  cases stepOutcome_of_step h with
  | fetchFault => exact .none rfl rfl (.inl rfl)
  | call hf hd hroom => exact .call hf hd hroom rfl rfl (addrOperand_toNat _)
  | ret hf hd hlive => exact .ret hf hd hlive rfl (Nat.succ_pred_eq_of_ne_zero hlive) rfl
  | unimplemented hf | halt hf | add hf | callFull hf | retEmpty hf =>
    exact .none rfl rfl (.inr (pc_add_two_toNat hf))

theorem step_mem {s t : State} (h : step s = .next t) : t.mem = s.mem := by
  cases stepOutcome_of_step h <;> rfl

/-! ## The invariants of R20 -/

theorem step_keeps_pcInRange {s t : State} (hpc : s.pcInRange) (hlive : s.liveEntriesFollowCalls)
    (h : step s = .next t) : t.pcInRange := by
  have hbound : s.pc.toNat ≤ 4096 := hpc
  show t.pc.toNat ≤ 4096
  cases stackMove_of_step h with
  | none _ _ hmove => omega
  | @call _ nnn _ _ _ _ _ htarget =>
    have := nnn.isLt
    omega
  | ret _ _ hne _ _ hentry =>
    obtain ⟨-, htop, -⟩ := hlive ⟨s.sp.val - 1, by omega⟩ (Nat.sub_one_lt hne)
    rw [hentry]
    exact htop

theorem step_keeps_liveEntriesFollowCalls {s t : State} (hlive : s.liveEntriesFollowCalls)
    (h : step s = .next t) : t.liveEntriesFollowCalls := by
  intro i hi
  rw [step_mem h]
  cases stackMove_of_step h with
  | none hstack hsp =>
    rw [hsp] at hi
    simpa only [hstack] using hlive i hi
  | call hf hd hroom hstack hsp =>
    simp only [hstack, Vector.getElem_set]
    split
    · have hcall := group_of_fetched_call hf hd
      obtain ⟨hp, hnext⟩ := pc_add_two_toNat hf
      rw [hnext, Nat.add_sub_cancel]
      exact ⟨by omega, by omega, hcall⟩
    · exact hlive i (by omega)
  | ret _ _ _ hstack hsp => simpa only [hstack] using hlive i (by omega)

/-- A RET turns a live entry into a stale one, so this invariant needs the range of the live entries too. -/
theorem step_keeps_staleEntriesInRange {s t : State} (hlive : s.liveEntriesFollowCalls)
    (hstale : s.staleEntriesInRange) (h : step s = .next t) : t.staleEntriesInRange := by
  intro i hi
  cases stackMove_of_step h with
  | none hstack hsp =>
    rw [hsp] at hi
    simpa only [hstack] using hstale i hi
  | call _ _ hroom hstack hsp =>
    have hother : s.sp.val ≠ i.val := by omega
    simpa only [hstack, Vector.getElem_set_ne _ _ hother] using hstale i (by omega)
  | ret _ _ _ hstack hsp =>
    simp only [hstack]
    by_cases hpopped : i.val < s.sp.val
    · obtain ⟨hlo, hhi, -⟩ := hlive i hpopped
      exact .inr ⟨hlo, hhi⟩
    · exact hstale i (by omega)

/-- Where a state may step nothing is recorded. -/
theorem record_empty_of_running {s : State} (hrun : s.status = .running) (hfault : s.faultedIffRecorded)
    (hword : s.wordIffUnimplemented) : s.faultKind = .none ∧ s.faultWord = 0 := by
  have hkind : s.faultKind = .none := by simpa [State.faultedIffRecorded, hrun] using hfault
  exact ⟨hkind, by simpa [State.wordIffUnimplemented, hkind] using hword⟩

/-- A step is taken with nothing recorded, so only the outcomes that raise a fault write the record. -/
theorem step_keeps_record {s t : State} (hfault : s.faultedIffRecorded) (hword : s.wordIffUnimplemented)
    (h : step s = .next t) : t.faultedIffRecorded ∧ t.wordIffUnimplemented := by
  have hrun := (step_cases h).1
  obtain ⟨hkind, hzero⟩ := record_empty_of_running hrun hfault hword
  cases stepOutcome_of_step h with
  | unimplemented _ hd =>
    exact ⟨by simp [State.faultedIffRecorded],
      by simpa [State.wordIffUnimplemented] using ne_zero_of_decodeWord_error hd⟩
  | fetchFault | callFull | retEmpty => simp [State.faultedIffRecorded, State.wordIffUnimplemented]
  | halt | add | call | ret => simp [State.faultedIffRecorded, State.wordIffUnimplemented, hrun, hkind, hzero]

/-- Settles O24, an invariant at a time: `pc` and the stack by the three ways a step can move them, the fault record by
the outcomes, memory because no step writes it. -/
theorem stepKeepsTheInvariant : Obligations.StepKeepsTheInvariant := by
  rintro s t ⟨hpc, hlive, hstale, hfault, hword, hmem⟩ h
  obtain ⟨hfault', hword'⟩ := step_keeps_record hfault hword h
  exact ⟨step_keeps_pcInRange hpc hlive h, step_keeps_liveEntriesFollowCalls hlive h,
    step_keeps_staleEntriesInRange hlive hstale h, hfault', hword', (step_mem h).symm ▸ hmem⟩

/-! ## Parity of `pc` (R10) -/

/-- `pc` and every live return address are even. -/
def State.evenAddresses (s : State) : Prop :=
  s.pc.toNat % 2 = 0 ∧ ∀ i : Fin 16, i.val < s.sp.val → s.stack[i.val].toNat % 2 = 0

/-- If the next step is a CALL that goes through, its target is even. -/
def State.callsEven (s : State) : Prop :=
  ∀ iw nnn, fetchWord s = some iw → decodeWord iw = .ok (.call nnn) → s.sp.val < 16 → nnn.toNat % 2 = 0

theorem step_keeps_evenAddresses {s t : State} (heven : s.evenAddresses) (hcall : s.callsEven)
    (h : step s = .next t) : t.evenAddresses := by
  obtain ⟨hpc, hlive⟩ := heven
  cases stackMove_of_step h with
  | none hstack hsp hmove =>
    refine ⟨by omega, fun i hi => ?_⟩
    rw [hsp] at hi
    simpa only [hstack] using hlive i hi
  | @call iw nnn hf hd hroom hstack hsp htarget =>
    refine ⟨by rw [htarget]; exact hcall iw nnn hf hd hroom, fun i hi => ?_⟩
    simp only [hstack, Vector.getElem_set]
    split
    · rw [(pc_add_two_toNat hf).2]
      omega
    · exact hlive i (by omega)
  | ret _ _ hne hstack hsp hentry =>
    refine ⟨?_, fun i hi => by simpa only [hstack] using hlive i (by omega)⟩
    rw [hentry]
    exact hlive ⟨s.sp.val - 1, by omega⟩ (Nat.sub_one_lt hne)

/-- A property that every step of one run keeps holds along that run. -/
theorem run_keeps_along {P : State → Prop} {s : State} (hstart : P s)
    (hstep : ∀ n t, P (run n s) → step (run n s) = .next t → P t) (n : Nat) : P (run n s) := by
  induction n with
  | zero => exact hstart
  | succ n ih =>
    by_cases hrun : (run n s).status = .running
    · obtain ⟨t, ht⟩ := exists_step_of_running hrun
      rw [run_succ_of_next ht]
      exact hstep n t ih ht
    · rw [run_add n 1 s, run_of_ended hrun]
      exact ih

/-- A CALL that goes through leaves its target in `pc`, RUNNING. -/
theorem step_of_call {s : State} {iw : Word} {nnn : Target} (hrun : s.status = .running) (hf : fetchWord s = some iw)
    (hd : decodeWord iw = .ok (.call nnn)) (hroom : s.sp.val < 16) :
    ∃ t, step s = .next t ∧ t.status = .running ∧ t.pc.toNat = nnn.toNat :=
  ⟨_, (StepOutcome.call hf hd hroom).step_eq hrun, hrun, addrOperand_toNat nnn⟩

/-- Settles O27. An odd target would be the `pc` of the next RUNNING state; and while every target is even, `pc` and the
live return addresses stay even together. -/
theorem pcStaysEvenExactlyByEvenCalls : Obligations.PcStaysEvenExactlyByEvenCalls := by
  intro s hpc hlive
  constructor
  · intro heven n iw nnn hrun hf hd hroom
    obtain ⟨t, ht, htrun, htpc⟩ := step_of_call hrun hf hd hroom
    have hnext := heven (n + 1)
    rw [run_succ_of_next ht, htpc] at hnext
    exact hnext htrun
  · intro hcalls n _
    have hall : (run n s).evenAddresses :=
      run_keeps_along (P := State.evenAddresses) ⟨hpc, hlive⟩
        (fun m t hm ht => step_keeps_evenAddresses hm (fun iw nnn => hcalls m iw nnn (step_cases ht).1) ht) n
    exact hall.1

/-! ## Which instruction writes what (R8, R12, R13, R15) -/

theorem readReg_writeCarry_other {r : RegIdx} (h : r ≠ 15) (c : BitVec 1) (s : State) :
    readReg (writeCarry c s) r = readReg s r :=
  readReg_writeReg_other h _ s

/-- Settles O29: the registers of every outcome but ADD's are those before the step. -/
theorem onlyAddWritesRegisters : Obligations.OnlyAddWritesRegisters := by
  intro s t r h hne
  cases stepOutcome_of_step h with
  | @add iw xi yi hf hd =>
    refine ⟨iw, xi, yi, hf, hd, ?_⟩
    by_contra hother
    obtain ⟨hxi, hflag⟩ := not_or.1 hother
    exact hne (by rw [readReg_writeCarry_other hflag, readReg_writeReg_other hxi, readReg_advance])
  | fetchFault | unimplemented | halt | call | callFull | ret | retEmpty => exact absurd rfl hne

/-- Settles O30: only the CALL among the three ways a step can move the stack sets an entry. -/
theorem onlyCallWritesTheStack : Obligations.OnlyCallWritesTheStack := by
  intro s t i h hne
  cases stackMove_of_step h with
  | none hstack => exact absurd (by simp only [hstack]) hne
  | @call iw nnn hf hd hroom hstack =>
    have hi : i.val = s.sp.val := by
      by_contra hother
      exact hne (by simp only [hstack, Vector.getElem_set_ne _ _ (Ne.symm hother)])
    exact ⟨iw, nnn, hf, hd, hi, by simp only [hstack, hi, Vector.getElem_set_self]⟩
  | ret _ _ _ hstack => exact absurd (by simp only [hstack]) hne

theorem step_sp_grows_iff {s t : State} (h : step s = .next t) :
    t.sp.val = s.sp.val + 1 ↔
      ∃ iw nnn, fetchWord s = some iw ∧ decodeWord iw = .ok (.call nnn) ∧ s.sp.val < 16 := by
  constructor
  · intro hgrow
    cases stackMove_of_step h with
    | none _ hsp => rw [hsp] at hgrow; omega
    | call hf hd hroom => exact ⟨_, _, hf, hd, hroom⟩
    | ret _ _ _ _ hsp => omega
  · rintro ⟨iw, nnn, hf, hd, hroom⟩
    rw [(StepOutcome.call hf hd hroom).eq_of_step h]

theorem step_sp_falls_iff {s t : State} (h : step s = .next t) :
    t.sp.val + 1 = s.sp.val ↔ ∃ iw, fetchWord s = some iw ∧ decodeWord iw = .ok .ret ∧ s.sp.val ≠ 0 := by
  constructor
  · intro hfall
    cases stackMove_of_step h with
    | none _ hsp => rw [hsp] at hfall; omega
    | call _ _ _ _ hsp => omega
    | ret hf hd hlive => exact ⟨_, hf, hd, hlive⟩
  · rintro ⟨iw, hf, hd, hlive⟩
    rw [(StepOutcome.ret hf hd hlive).eq_of_step h]
    exact Nat.succ_pred_eq_of_ne_zero hlive

/-- Settles O31: `sp` tells the three ways a step can move the stack apart, and a CALL with room and a RET with a live
entry have one outcome each. -/
theorem spCountsCallsAndReturns : Obligations.SpCountsCallsAndReturns := by
  intro s t h
  refine ⟨step_sp_grows_iff h, step_sp_falls_iff h, ?_⟩
  cases stackMove_of_step h with
  | none _ hsp => exact .inr (.inr hsp)
  | call _ _ _ _ hsp => exact .inl hsp
  | ret _ _ _ _ hsp => exact .inr (.inl hsp)

/-- Settles O34: the other outcomes fault or leave `status` RUNNING, and only the word 0x0000 decodes to HALT. -/
theorem onlyTheHaltWordHalts : Obligations.OnlyTheHaltWordHalts := by
  intro s t h
  constructor
  · intro hhalted
    have hrun := (step_cases h).1
    cases stepOutcome_of_step h with
    | halt hf hd => rw [hf, eq_zero_of_decodeWord_halt hd]
    | fetchFault | unimplemented | callFull | retEmpty => cases hhalted
    | add | call | ret => cases hrun.symm.trans hhalted
  · intro hf
    rw [(StepOutcome.halt hf rfl).eq_of_step h, haltRun_status]

/-! ## Reset (R19) -/

/-- Every launch state with canonical memory has the invariants: its stack is all stale zeros and nothing is recorded. -/
theorem launch_inv (x : Vector Byte 16) {m : Memory} (h : m.wf) : (launch x m).Inv := by
  refine ⟨Nat.zero_le _, fun i hi => absurd hi (Nat.not_lt_zero _), fun i _ => .inl ?_, ?_, ?_, h⟩
  · simp
  · simp [State.faultedIffRecorded]
  · simp [State.wordIffUnimplemented]

/-- Settles O25: reset is the launch state with nothing seeded. -/
theorem resetMeetsTheInvariant : Obligations.ResetMeetsTheInvariant :=
  launch_inv State.reset.x reset_mem_wf

/-- Settles O38: the reset state is zeros by definition; the vectors and memory need their read laws. -/
theorem resetIsAllZero : Obligations.ResetIsAllZero := by
  refine ⟨fun i => ?_, rfl, fun i => ?_, rfl, reset_mem_read, rfl, rfl⟩
  · simp [readReg, State.reset]
  · simp [State.reset]

end Sys2Proof.Machine
end

/-! # What a step and a run do with memory (spec 20_memory.md)

The fetch reads two bytes, nothing after it reads memory, and nothing writes it. -/

section
namespace Sys2Proof.Machine

/-! ## What the fetch reads (R22 to R24) -/

/-- The fetch sees the memory only at `pc` and `pc + 1`. -/
theorem fetchWord_with_mem {s : State} {m : Memory} (hhi : m.read s.pc.toNat = s.mem.read s.pc.toNat)
    (hlo : m.read (s.pc.toNat + 1) = s.mem.read (s.pc.toNat + 1)) :
    fetchWord { s with mem := m } = fetchWord s := by
  by_cases hpc : s.pc.toNat ≤ 4094
  · rw [fetchWord_of_inside hpc, fetchWord_of_inside (s := { s with mem := m }) hpc, hhi, hlo]
  · have hout : 4095 ≤ s.pc.toNat := by omega
    rw [fetchWord_of_outside hout, fetchWord_of_outside (s := { s with mem := m }) hout]

/-- Settles O6: inside the bound the fetch joins the two bytes, and each half of the joined word is its byte. -/
theorem fetchReadsHighByteFirst : Obligations.FetchReadsHighByteFirst := by
  intro s hpc
  exact ⟨_, fetchWord_of_inside (by omega), highByte_joinBytes _ _, lowByte_joinBytes _ _⟩

/-! ## What a step reads (R22) -/

/-- Past the fetch an outcome does not depend on memory: another memory with the same word at `pc` gives the same
outcome, which keeps that memory. -/
theorem StepOutcome.with_mem {s t : State} {m : Memory} (hfetch : fetchWord { s with mem := m } = fetchWord s)
    (h : StepOutcome s t) : StepOutcome { s with mem := m } { t with mem := m } := by
  cases h with
  | fetchFault hf => exact .fetchFault (hfetch.trans hf)
  | unimplemented hf hd => exact .unimplemented (hfetch.trans hf) hd
  | halt hf hd => exact .halt (hfetch.trans hf) hd
  | add hf hd => exact .add (hfetch.trans hf) hd
  | call hf hd hroom => exact .call (hfetch.trans hf) hd hroom
  | callFull hf hd hfull => exact .callFull (hfetch.trans hf) hd hfull
  | ret hf hd hlive => exact .ret (hfetch.trans hf) hd hlive
  | retEmpty hf hd hempty => exact .retEmpty (hfetch.trans hf) hd hempty

/-- Settles O8: memories that agree on the two bytes fetch the same word, and the outcome follows from the word. -/
theorem stepReadsOnlyTheFetchedBytes : Obligations.StepReadsOnlyTheFetchedBytes := by
  intro s t m hhi hlo hstep
  have hrun : s.status = .running := (step_cases hstep).1
  have hout : StepOutcome { s with mem := m } { t with mem := m } :=
    (stepOutcome_of_step hstep).with_mem (fetchWord_with_mem hhi hlo)
  exact hout.step_eq hrun

/-! ## Runs and memory (R14, R32) -/

theorem run_mem (n : Nat) (s : State) : (run n s).mem = s.mem :=
  run_keeps (P := fun t => t.mem = s.mem) (fun _ _ hkept hstep => (step_mem hstep).trans hkept) rfl n

/-- Settles O28: no step writes memory, so no run does. -/
theorem runsNeverWriteMemory : Obligations.RunsNeverWriteMemory := by
  intro n s a
  rw [run_mem]

end Sys2Proof.Machine
end

/-! # The fields of a word are its slices (spec 30_encoding.md)

A shift divides and a mask of low ones takes a remainder, so each slice of R35 is the number its field already has. -/

section
namespace Sys2Proof

/-! ## Shift and mask as numbers -/

/-- A mask of `m` low ones keeps the remainder by `2 ^ m`. -/
theorem and_lowMask_toNat (iw : Word) (m : Nat) (hm : m ≤ 16) :
    (iw &&& BitVec.ofNat 16 (2 ^ m - 1)).toNat = iw.toNat % 2 ^ m := by
  have hfits : 2 ^ m - 1 < 2 ^ 16 :=
    (Nat.sub_one_lt (Nat.two_pow_pos m).ne').trans_le (Nat.pow_le_pow_right (by decide) hm)
  rw [BitVec.toNat_and, BitVec.toNat_ofNat, Nat.mod_eq_of_lt hfits, Nat.and_two_pow_sub_one_eq_mod]

/-- The nibble that starts at bit `k`, by shift and mask. -/
theorem shiftRight_and_nibbleMask_toNat (iw : Word) (k : Nat) :
    (iw >>> k &&& 0xF).toNat = iw.toNat / 2 ^ k % 16 := by
  rw [← Nat.shiftRight_eq_div_pow, ← BitVec.toNat_ushiftRight]
  exact and_lowMask_toNat (iw >>> k) 4 (by decide)

/-! ## The layout (R35) -/

/-- The address field overlaps `xi`, `yi` and `n`: it is those three, most significant nibble first. -/
theorem fieldNnn_toNat_eq_fields (iw : Word) :
    (fieldNnn iw).toNat = (fieldXi iw).val * 256 + (fieldYi iw).val * 16 + (fieldN iw).toNat := by
  rw [fieldNnn_toNat, fieldXi_val, fieldYi_val, fieldN_toNat]
  omega

/-- A word is its group above its address field. -/
theorem toNat_eq_fieldG_fieldNnn (iw : Word) :
    iw.toNat = (fieldG iw).toNat * 4096 + (fieldNnn iw).toNat := by
  rw [fieldG_toNat, fieldNnn_toNat, Nat.div_add_mod']

/-- Settles O4: a field and its slice are the same quotient and remainder of the word. -/
theorem fieldsAreCutByShiftAndMask : Obligations.FieldsAreCutByShiftAndMask := by
  intro iw
  refine ⟨?group, ?xi, ?yi, ?n, ?nnn, fieldNnn_toNat_eq_fields iw, toNat_eq_fieldG_fieldNnn iw⟩
  case group =>
    have hfits : iw.toNat / 2 ^ 12 < 16 := fieldG_toNat iw ▸ (fieldG iw).isLt
    rw [shiftRight_and_nibbleMask_toNat, Nat.mod_eq_of_lt hfits]
    exact fieldG_toNat iw
  case xi => exact (fieldXi_val iw).trans (shiftRight_and_nibbleMask_toNat iw 8).symm
  case yi => exact (fieldYi_val iw).trans (shiftRight_and_nibbleMask_toNat iw 4).symm
  case n => exact (fieldN_toNat iw).trans (and_lowMask_toNat iw 4 (by decide)).symm
  case nnn => exact (fieldNnn_toNat iw).trans (and_lowMask_toNat iw 12 (by decide)).symm

end Sys2Proof
end

/-! # The step: fetch, decode, dispatch (spec 40_step_fetch_decode_dispatch.md)

The opcode map as conditions on the word, and from it the outcome of the dispatch; where the fetch faults and where `pc`
stands after each outcome; the step against the pseudocode of R48; and why every run ends. -/

section
namespace Sys2Proof

/-! ## The rows of the opcode map and the decoder (R38, R46) -/

/-- The instruction of the same row as `i` whose operands are the fields of the word. -/
def Instr.withFields (iw : Word) : Instr → Instr
  | .halt => .halt
  | .ret => .ret
  | .call _ => .call (fieldNnn iw)
  | .add _ _ => .add (fieldXi iw) (fieldYi iw)

@[simp] theorem Instr.row_withFields (iw : Word) (i : Instr) : (i.withFields iw).row = i.row := by
  cases i <;> rfl

theorem mem_opcodeMap_iff {r : OpcodeRow} : r ∈ opcodeMap ↔ ∃ i : Instr, i.row = r := by
  constructor
  · intro hr
    obtain rfl | rfl | rfl | rfl : r = rowHalt ∨ r = rowRet ∨ r = rowCall ∨ r = rowAdd := by simpa [opcodeMap] using hr
    exacts [⟨.halt, rfl⟩, ⟨.ret, rfl⟩, ⟨.call 0, rfl⟩, ⟨.add 0 0, rfl⟩]
  · rintro ⟨i, rfl⟩
    cases i <;> simp [opcodeMap, Instr.row]

theorem row_matches_of_decodeWord {iw : Word} {i : Instr} (h : decodeWord iw = .ok i) :
    i.row.matchesWord iw = true ∧ i = i.withFields iw := by
  rcases decodeWord_cases iw with ⟨hd, hw⟩ | ⟨hd, hw⟩ | ⟨hd, hw⟩ | ⟨hd, hw⟩ | ⟨hd, -⟩ <;> cases hd.symm.trans h
  · exact ⟨(rowHalt_matches iw).2 hw, rfl⟩
  · exact ⟨(rowRet_matches iw).2 hw, rfl⟩
  · exact ⟨(rowCall_matches iw).2 hw, rfl⟩
  · exact ⟨(rowAdd_matches iw).2 hw, rfl⟩

theorem decodeWord_of_row_matches {iw : Word} {i : Instr} (h : i.row.matchesWord iw = true) :
    decodeWord iw = .ok (i.withFields iw) := by
  have hcases := decodeWord_cases iw
  cases i with
  | halt =>
    have hw := (rowHalt_matches iw).1 h
    exact (hcases.resolve_right (by omega)).1
  | ret =>
    have hw := (rowRet_matches iw).1 h
    exact ((hcases.resolve_left (by omega)).resolve_right (by omega)).1
  | call nnn =>
    have hw := (rowCall_matches iw).1 h
    exact (((hcases.resolve_left (by omega)).resolve_left (by omega)).resolve_right (by omega)).1
  | add xi yi =>
    have hw := (rowAdd_matches iw).1 h
    exact ((((hcases.resolve_left (by omega)).resolve_left (by omega)).resolve_left (by omega)).resolve_right
      (by omega)).1

theorem decodeWord_eq_ok_iff {iw : Word} {i : Instr} :
    decodeWord iw = .ok i ↔ i.row.matchesWord iw = true ∧ i = i.withFields iw := by
  constructor
  · exact row_matches_of_decodeWord
  · rintro ⟨hmatch, hfields⟩
    rw [decodeWord_of_row_matches hmatch, ← hfields]

/-- The decoder is a function, so no word matches two rows. -/
theorem row_eq_of_matches {i j : Instr} {iw : Word} (hi : i.row.matchesWord iw = true)
    (hj : j.row.matchesWord iw = true) : i.row = j.row := by
  have hsame : i.withFields iw = j.withFields iw :=
    Except.ok.inj ((decodeWord_of_row_matches hi).symm.trans (decodeWord_of_row_matches hj))
  rw [← i.row_withFields iw, hsame, j.row_withFields]

theorem opcodeMap_rows_disjoint :
    opcodeMap.Pairwise fun r q => ∀ iw, r.matchesWord iw = true → q.matchesWord iw = false := by
  have hdistinct : opcodeMap.Pairwise (· ≠ ·) := by decide
  refine hdistinct.imp_of_mem fun hr hq hne iw hmatch => ?_
  obtain ⟨i, rfl⟩ := mem_opcodeMap_iff.1 hr
  obtain ⟨j, rfl⟩ := mem_opcodeMap_iff.1 hq
  exact Bool.eq_false_iff.2 fun hmatch' => hne (row_eq_of_matches hmatch hmatch')

theorem decodeWord_ok_or_unimplemented (iw : Word) :
    (∃ i, decodeWord iw = .ok i) ∨ decodeWord iw = .error (.unimplemented iw) := by
  rcases decodeWord_cases iw with ⟨hd, -⟩ | ⟨hd, -⟩ | ⟨hd, -⟩ | ⟨hd, -⟩ | ⟨hd, -⟩
  case inr.inr.inr.inr => exact .inr hd
  all_goals exact .inl ⟨_, hd⟩

theorem decodeWord_eq_unimplemented_iff {iw : Word} :
    decodeWord iw = .error (.unimplemented iw) ↔ ∀ r ∈ opcodeMap, r.matchesWord iw = false := by
  constructor
  · intro herr r hr
    obtain ⟨i, rfl⟩ := mem_opcodeMap_iff.1 hr
    refine Bool.eq_false_iff.2 fun hmatch => ?_
    cases herr.symm.trans (decodeWord_of_row_matches hmatch)
  · intro hnone
    refine (decodeWord_ok_or_unimplemented iw).resolve_left ?_
    rintro ⟨i, hd⟩
    have hmiss := hnone i.row (mem_opcodeMap_iff.2 ⟨i, rfl⟩)
    rw [(row_matches_of_decodeWord hd).1] at hmiss
    cases hmiss

theorem decodeBytes_pair_eq_ok_iff {hi lo : Byte} {i : Instr} :
    decodeBytes [hi, lo] = .ok (i, []) ↔ decodeWord (joinBytes hi lo) = .ok i := by
  cases hd : decodeWord (joinBytes hi lo) <;> simp [decodeBytes, hd, Except.map]

end Sys2Proof
end

section
namespace Sys2Proof.Machine

theorem dispatchWord_of_decoded {iw : Word} {i : Instr} (h : decodeWord iw = .ok i) (s : State) :
    dispatchWord iw s = exec i s := by
  rw [dispatchWord, h]

theorem dispatchWord_of_unimplemented {iw : Word} (h : decodeWord iw = .error (.unimplemented iw)) (s : State) :
    dispatchWord iw s = .next (raise .unimplementedInstruction iw s) := by
  rw [dispatchWord, h]

/-- Settles O5: a word decodes to an instruction exactly where it matches that instruction's row and the operands are its
fields; the decoder being a function, the rows are disjoint. -/
theorem dispatchFollowsTheOpcodeMap : Obligations.DispatchFollowsTheOpcodeMap := by
  refine ⟨fun iw => ⟨?halt, ?ret, fun nnn => ?call, fun xi yi => ?add, decodeWord_eq_unimplemented_iff⟩,
    opcodeMap_rows_disjoint, fun iw s => ⟨fun i hd => dispatchWord_of_decoded hd s, ?raised⟩⟩
  case raised =>
    intro hnone
    exact dispatchWord_of_unimplemented (decodeWord_eq_unimplemented_iff.2 hnone) s
  all_goals
    rw [decodeWord_eq_ok_iff]
    simp [Instr.row, Instr.withFields, OpcodeRow.matchesWord, rowHalt, rowRet, rowCall, rowAdd]

/-! ## When a step exists, and where its fetch faults (R42, R43) -/

theorem fetchWord_isSome_iff {s : State} : (∃ iw, fetchWord s = some iw) ↔ s.pc.toNat < 4095 := by
  constructor
  · rintro ⟨iw, hf⟩
    exact Nat.lt_succ_of_le (fetchWord_eq_some hf).1
  · intro hp
    exact ⟨_, fetchWord_of_inside (Nat.le_of_lt_succ hp)⟩

/-- Settles O7: the fetch's two equations, and the outcome where there is no word. -/
theorem fetchOutOfBoundsFaultsInPlace : Obligations.FetchOutOfBoundsFaultsInPlace := by
  refine fun s => ⟨fetchWord_isSome_iff, fun hp => fetchWord_of_inside (Nat.le_of_lt_succ hp), fun hrun hp => ?_⟩
  have hstep := (StepOutcome.fetchFault (fetchWord_of_outside hp)).step_eq hrun
  exact ⟨_, hstep, rfl, rfl, rfl, rfl, rfl, rfl, fun _ => rfl⟩

theorem exists_step_iff_running {s : State} : (∃ t, step s = .next t) ↔ s.status = .running :=
  ⟨fun ⟨_, h⟩ => (step_cases h).1, exists_step_of_running⟩

theorem step_ne_refused (s : State) (r : Refusal) : step s ≠ .refused r := by
  intro h
  cases hs : s.status with
  | running =>
    obtain ⟨t, ht⟩ := exists_step_of_running hs
    cases ht.symm.trans h
  | halted => cases (step_of_halted hs).symm.trans h
  | faulted => cases (step_of_faulted hs).symm.trans h

/-- Settles O10, a status at a time. -/
theorem stepExistsExactlyWhenRunning : Obligations.StepExistsExactlyWhenRunning :=
  fun s => ⟨exists_step_iff_running, step_of_halted, step_of_faulted, step_ne_refused s⟩

/-- Settles O9: the two bytes decode as the word the fetch joins. -/
theorem stepRunsTheDecodedInstruction : Obligations.StepRunsTheDecodedInstruction := by
  intro s i hrun hpc hbytes _
  exact step_eq_exec hrun (fetchWord_of_inside (by omega)) (decodeBytes_pair_eq_ok_iff.1 hbytes)

/-! ## What each outcome leaves (R44, R47) -/

/-- Settles O12: each row of R44's table is an outcome of the step, and a step has one outcome. -/
theorem pcAfterEachOutcome : Obligations.PcAfterEachOutcome := by
  intro s t h
  constructor
  · intro hf
    rw [(StepOutcome.fetchFault hf).eq_of_step h, raise_pc]
  intro iw hf
  obtain ⟨hp, hnext⟩ := pc_add_two_toNat hf
  refine ⟨hnext, by omega, fun hd => ?halt, fun xi yi hd => ?add,
    fun nnn hd => ⟨fun hroom => ?call, fun hfull => ?callFull⟩,
    fun hd => ⟨fun hlive => ?ret, fun hempty => ?retEmpty⟩, fun hd => ?unimplemented⟩
  case halt => rw [(StepOutcome.halt hf hd).eq_of_step h, haltRun_pc, advance_pc]
  case add => rw [(StepOutcome.add hf hd).eq_of_step h, writeCarry_pc, writeReg_pc, advance_pc]
  case call =>
    rw [(StepOutcome.call hf hd hroom).eq_of_step h]
    exact ⟨addrOperand_toNat nnn, Vector.getElem_set_self hroom⟩
  case callFull => rw [(StepOutcome.callFull hf hd hfull).eq_of_step h, raise_pc, advance_pc]
  case ret => rw [(StepOutcome.ret hf hd hlive).eq_of_step h]
  case retEmpty => rw [(StepOutcome.retEmpty hf hd hempty).eq_of_step h, raise_pc, advance_pc]
  case unimplemented => rw [(StepOutcome.unimplemented hf hd).eq_of_step h, raise_pc, advance_pc]

theorem no_row_matches_iff {iw : Word} :
    (∀ r ∈ opcodeMap, r.matchesWord iw = false) ↔
      iw ≠ 0x0000 ∧ iw ≠ 0x00EE ∧ iw &&& 0xF000 ≠ 0x2000 ∧ iw &&& 0xF00F ≠ 0x8004 := by
  have hall : iw &&& 65535#16 = iw := BitVec.and_allOnes
  simp [opcodeMap, rowHalt, rowRet, rowCall, rowAdd, OpcodeRow.matchesWord, hall]

/-- Settles O13: a word that matches no row is not decoded, and the state after the raise is FAULTED. -/
theorem unimplementedWordEndsTheRun : Obligations.UnimplementedWordEndsTheRun := by
  intro s iw hrun hf hhalt hret hcall hadd
  have herr := decodeWord_eq_unimplemented_iff.2 (no_row_matches_iff.2 ⟨hhalt, hret, hcall, hadd⟩)
  refine ⟨_, (StepOutcome.unimplemented hf herr).step_eq hrun, rfl, fun u hu => ?_⟩
  cases (step_of_faulted (raise_status ..)).symm.trans hu

/-! ## The step is the pseudocode of R48 -/

theorem adder_sum_eq_ofNat (a b : Byte) : (adder a b).sum = BitVec.ofNat 8 ((a.toNat + b.toNat) % 256) := by
  apply BitVec.eq_of_toNat_eq
  simp [adder_sum_toNat]

theorem adder_carry_zeroExtend (a b : Byte) :
    (adder a b).carry.zeroExtend 8 = if 256 ≤ a.toNat + b.toNat then 1 else 0 := by
  apply BitVec.eq_of_toNat_eq
  rw [BitVec.zeroExtend_eq_setWidth, BitVec.toNat_setWidth, adder_carry_toNat]
  split <;> rfl

theorem pseudoRaise_toNat (kind : FaultKind) (w : Word) (s : State) :
    pseudoRaise kind w.toNat s = raise kind w s := by
  simp [pseudoRaise, raise]

theorem execRet_eq_pseudoDispatch (s : State) : execRet s = .next (pseudoDispatch 0x00EE s) := by
  by_cases hempty : s.sp.val = 0
  · rw [execRet_of_empty hempty]
    simp [pseudoDispatch, hempty, ← pseudoRaise_toNat]
  · rw [execRet_of_nonempty hempty]
    simp [pseudoDispatch, hempty]

theorem execCall_eq_pseudoDispatch {iw : Word} (hw : iw.toNat / 4096 = 2) (s : State) :
    execCall (fieldNnn iw) s = .next (pseudoDispatch iw.toNat s) := by
  have hhalt : iw.toNat ≠ 0 := by omega
  have hret : iw.toNat ≠ 0xEE := by omega
  by_cases hroom : s.sp.val < 16
  · have htarget : addrOperand (fieldNnn iw) = BitVec.ofNat 16 (iw.toNat % 4096) := by
      rw [← fieldNnn_toNat, ← addrOperand_toNat, BitVec.ofNat_toNat, BitVec.setWidth_eq]
    rw [execCall_of_room _ hroom, htarget]
    simp [pseudoDispatch, hhalt, hret, hw, hroom]
  · have hfull : s.sp.val = 16 := by omega
    rw [execCall_of_full _ hfull]
    simp [pseudoDispatch, hhalt, hret, hw, hfull, ← pseudoRaise_toNat]

theorem execAdd_eq_pseudoDispatch {iw : Word} (hw : iw.toNat / 4096 = 8 ∧ iw.toNat % 16 = 4) (s : State) :
    execAdd (fieldXi iw) (fieldYi iw) s = .next (pseudoDispatch iw.toNat s) := by
  obtain ⟨hg, hn⟩ := hw
  have hhalt : iw.toNat ≠ 0 := by omega
  have hret : iw.toNat ≠ 0xEE := by omega
  simp only [execAdd, pseudoDispatch, hhalt, hret, hg, hn, if_false, writeCarry, writeReg, regOperand, readReg,
    adder_sum_eq_ofNat, adder_carry_zeroExtend, fieldXi_val, fieldYi_val]
  rfl

/-- The handler the decoder chooses does what R48's arm for the same word does. -/
theorem dispatchWord_eq_pseudoDispatch (iw : Word) (s : State) :
    dispatchWord iw s = .next (pseudoDispatch iw.toNat s) := by
  rcases decodeWord_cases iw with ⟨hd, hw⟩ | ⟨hd, hw⟩ | ⟨hd, hw⟩ | ⟨hd, hw⟩ | ⟨hd, hhalt, hret, hcall, hadd⟩
  · rw [dispatchWord_of_decoded hd, hw]
    rfl
  · rw [dispatchWord_of_decoded hd, hw]
    exact execRet_eq_pseudoDispatch s
  · rw [dispatchWord_of_decoded hd]
    exact execCall_eq_pseudoDispatch hw s
  · rw [dispatchWord_of_decoded hd]
    exact execAdd_eq_pseudoDispatch hw s
  · rw [dispatchWord_of_unimplemented hd, ← pseudoRaise_toNat]
    simp only [pseudoDispatch, hhalt, hret, hcall, hadd, if_false]

theorem advance_eq_ofNat (s : State) : advance s = { s with pc := BitVec.ofNat 16 (s.pc.toNat + 2) } := by
  simp [advance, setPc, BitVec.ofNat_add]

/-- Settles O11: fetch bound, joined word, advance and handler are those of R48, one after the other. -/
theorem stepIsThePseudocode : Obligations.StepIsThePseudocode := by
  intro s hrun
  by_cases hp : s.pc.toNat ≥ 4095
  · rw [(StepOutcome.fetchFault (fetchWord_of_outside hp)).step_eq hrun, ← pseudoRaise_toNat]
    simp [pseudoStep, hp]
  · rw [step_of_fetched hrun (fetchWord_of_inside (by omega)), dispatchWord_eq_pseudoDispatch, joinBytes_toNat,
      advance_eq_ofNat]
    simp only [pseudoStep, hp, if_false]

/-! ## Every run ends (R50)

Only a CALL can move `pc` backwards, and it leaves the address after itself for the RET that comes back. So at each call
depth the addresses only grow, and what happens at greater depth does not undo it: the addresses still ahead, depth by
depth, fall in the lexicographic order. -/

/-- How many addresses lie ahead at each call depth: of the return address at a depth below the present one, of `pc` at the
present one, none above. -/
def State.addressesAhead (s : State) (d : Depth) : Nat :=
  if h : d.val < s.sp.val then 65536 - (s.stack[d.val]'(by omega)).toNat
  else if d = s.sp then 65536 - s.pc.toNat
  else 0

theorem State.addressesAhead_of_eq {s : State} {d : Depth} (h : d.val = s.sp.val) :
    s.addressesAhead d = 65536 - s.pc.toNat := by
  simp [State.addressesAhead, Fin.ext h]

theorem State.addressesAhead_of_lt {s : State} {d : Depth} (h : d.val < s.sp.val) :
    s.addressesAhead d = 65536 - (s.stack[d.val]'(by omega)).toNat :=
  dif_pos h

theorem State.addressesAhead_of_gt {s : State} {d : Depth} (h : s.sp.val < d.val) :
    s.addressesAhead d = 0 := by
  have hne : d ≠ s.sp := fun he => h.ne' (congrArg Fin.val he)
  rw [State.addressesAhead, dif_neg h.not_gt, if_neg hne]

theorem pc_add_two_ahead {s : State} {iw : Word} (hf : fetchWord s = some iw) :
    65536 - (s.pc + 2).toNat < 65536 - s.pc.toNat := by
  obtain ⟨hp, hnext⟩ := pc_add_two_toNat hf
  omega

/-- At the depth a step is taken at the addresses ahead fall, below it they stay: ADD moves `pc` on, CALL leaves the address
after itself at that depth, and RET leaves that depth for the return address already counted one below. -/
theorem step_lowers_addressesAhead {s t : State} (h : step s = .next t) (hrun : t.status = .running) :
    toLex t.addressesAhead < toLex s.addressesAhead := by
  suffices hfall : (∀ d : Depth, d.val < s.sp.val → t.addressesAhead d = s.addressesAhead d) ∧
      t.addressesAhead s.sp < s.addressesAhead s.sp from ⟨s.sp, hfall⟩
  rw [State.addressesAhead_of_eq rfl]
  cases stepOutcome_of_step h with
  | fetchFault | unimplemented | halt | callFull | retEmpty => cases hrun
  | add hf =>
    refine ⟨fun d hd => ?_, (State.addressesAhead_of_eq rfl).trans_lt (pc_add_two_ahead hf)⟩
    rw [State.addressesAhead_of_lt hd, State.addressesAhead_of_lt (by exact hd)]
    rfl
  | call hf _ hroom =>
    refine ⟨fun d hd => ?_, ?_⟩
    · rw [State.addressesAhead_of_lt hd, State.addressesAhead_of_lt (Nat.lt_succ_of_lt hd)]
      simp only [Vector.getElem_set_ne _ _ (Nat.ne_of_gt hd)]
    · rw [State.addressesAhead_of_lt (Nat.lt_succ_self _)]
      simpa only [Vector.getElem_set_self] using pc_add_two_ahead hf
  | ret hf _ hlive =>
    refine ⟨fun d hd => ?_, ?_⟩
    · rw [State.addressesAhead_of_lt hd]
      by_cases htop : d.val = s.sp.val - 1
      · rw [State.addressesAhead_of_eq (by exact htop)]
        simp only [htop]
      · exact State.addressesAhead_of_lt (show d.val < s.sp.val - 1 by omega)
    · rw [State.addressesAhead_of_gt (by exact Nat.sub_one_lt hlive)]
      exact Nat.zero_lt_of_lt (pc_add_two_ahead hf)

theorem exists_run_ended (s : State) : ∃ n, (run n s).ended := by
  induction hahead : toLex s.addressesAhead using WellFoundedLT.induction generalizing s with
  | ind a ih =>
    subst hahead
    by_cases hrun : s.status = .running
    · obtain ⟨t, ht⟩ := exists_step_of_running hrun
      have hrest : ∃ n, (run n t).ended := by
        by_cases hnext : t.status = .running
        · exact ih _ (step_lowers_addressesAhead ht hnext) t rfl
        · exact ⟨0, hnext⟩
      obtain ⟨n, hn⟩ := hrest
      exact ⟨n + 1, by rwa [run_of_next ht]⟩
    · exact ⟨0, hrun⟩

theorem ended_with_record {s : State} (hend : s.ended) (hfault : s.faultedIffRecorded) :
    s.endedWell ∨ s.endedBadly := by
  cases hs : s.status with
  | running => exact absurd hs hend
  | halted => exact .inl ⟨hs, by simpa [State.faultedIffRecorded, hs] using hfault⟩
  | faulted => exact .inr ⟨hs, hfault.1 hs⟩

/-- Settles O35: the addresses ahead cannot fall for ever, and the fault record tells the ends apart. -/
theorem everyRunEnds : Obligations.EveryRunEnds := by
  intro s
  obtain ⟨n, hend⟩ := exists_run_ended s
  refine ⟨n, hend, fun hinv => ?_⟩
  obtain ⟨-, -, -, hfault, -⟩ : (run n s).Inv := run_keeps stepKeepsTheInvariant hinv n
  exact ended_with_record hend hfault

end Sys2Proof.Machine
end

/-! # HALT (spec 41_system_halt.md)

The one word that decodes to HALT, the step that fetches it, and the end it leaves. -/

section
namespace Sys2Proof.Machine

theorem decodeWord_eq_halt_iff {iw : Word} : decodeWord iw = .ok .halt ↔ iw = 0x0000 := by
  constructor
  · exact eq_zero_of_decodeWord_halt
  · rintro rfl
    rfl

theorem exec_halt (s : State) : exec .halt s = .next (haltRun s) := rfl

/-- The step that fetches the HALT word (R51): `pc` past it and `status`, nothing else. -/
theorem step_of_haltWord {s : State} (hrun : s.status = .running) (hf : fetchWord s = some 0x0000) :
    step s = .next (haltRun (advance s)) :=
  (StepOutcome.halt hf (decodeWord_eq_halt_iff.2 rfl)).step_eq hrun

/-- The reset memory holds zeros, so the fetch at reset reads the HALT word (P12). -/
theorem fetchWord_reset : fetchWord State.reset = some 0x0000 := by
  rw [fetchWord_of_inside (by decide), reset_mem_read, reset_mem_read]
  rfl

/-- Settles O14: HALT's handler and the decoder's one word give the step; the state after it is HALTED, and reset is a
state whose step it is. -/
theorem haltEndsTheRun : Obligations.HaltEndsTheRun := by
  refine ⟨exec_halt, fun iw => decodeWord_eq_halt_iff, fun s hrun hf => ?_, step_of_haltWord rfl fetchWord_reset⟩
  refine ⟨haltRun (advance s), step_of_haltWord hrun hf, rfl, fun u hu => ?_⟩
  cases (step_of_halted (haltRun_status (advance s))).symm.trans hu

end Sys2Proof.Machine
end

/-! # ADD (spec 42_arith_add_with_carry.md)

The adder's two outputs against the true sum, the state ADD leaves in terms of them, and the rules of register writes that
show the old flag to be overwritten. -/

section
namespace Sys2Proof.Machine

/-! ## The adder (R53) -/

theorem adder_carry_eq_one_iff (a b : Byte) : (adder a b).carry = 1 ↔ 256 ≤ a.toNat + b.toNat := by
  rw [← BitVec.toNat_inj, adder_carry_toNat]
  simp

theorem adder_carry_sum_eq_add (a b : Byte) :
    a.toNat + b.toNat = 256 * (adder a b).carry.toNat + (adder a b).sum.toNat := by
  rw [adder_carry_toNat, adder_sum_toNat]
  split <;> omega

theorem adder_comm (a b : Byte) : adder a b = adder b a := by
  simp only [adder, BitVec.add_comm]

/-! ## Two register writes (R8) -/

theorem writeReg_writeReg_same (i : RegIdx) (v w : Byte) (s : State) :
    writeReg i v (writeReg i w s) = writeReg i v s := by
  simp [writeReg]

theorem writeReg_comm {i j : RegIdx} (h : i ≠ j) (v w : Byte) (s : State) :
    writeReg i v (writeReg j w s) = writeReg j w (writeReg i v s) := by
  simp only [writeReg, Vector.set_comm _ _ (Fin.val_ne_of_ne h.symm)]

/-- A carry written over another value of the flag leaves no trace of it, whatever register is written in between. -/
theorem writeCarry_writeReg_writeReg_flag {i : RegIdx} (h : i ≠ 15) (c : BitVec 1) (v w : Byte) (s : State) :
    writeCarry c (writeReg i v (writeReg 15 w s)) = writeCarry c (writeReg i v s) := by
  rw [writeReg_comm h, writeCarry, writeReg_writeReg_same, writeCarry]

/-! ## The handler (R52) -/

theorem exec_add (xi yi : RegIdx) (s : State) :
    exec (.add xi yi) s = .next (writeCarry (adder (readReg s xi) (readReg s yi)).carry
      (writeReg xi (adder (readReg s xi) (readReg s yi)).sum s)) := rfl

theorem readReg_writeCarry_flag (c : BitVec 1) (s : State) : readReg (writeCarry c s) 15 = c.zeroExtend 8 :=
  readReg_writeReg_same ..

/-- Settles O15: the flag is the last write, the sum the one before it, and no other register or field is written. -/
theorem addWritesSumThenCarry : Obligations.AddWritesSumThenCarry := by
  intro s xi yi
  refine ⟨_, exec_add xi yi s, ?flag, fun hxi => ?sum, fun r hr hflag => ?other,
    rfl, rfl, rfl, fun _ => rfl, rfl, rfl, rfl⟩
  case flag => rw [readReg_writeCarry_flag, adder_carry_zeroExtend]
  case sum => rw [readReg_writeCarry_other hxi, readReg_writeReg_same, adder_sum_toNat]
  case other => rw [readReg_writeCarry_other hflag, readReg_writeReg_other hr]

/-- Settles O16: the laws of the adder; through ADD they show in the registers it writes (O15). -/
theorem adderGivesTheTrueSum : Obligations.AdderGivesTheTrueSum := by
  constructor
  · exact fun a b =>
      ⟨adder_sum_toNat a b, adder_carry_eq_one_iff a b, adder_carry_sum_eq_add a b, adder_comm a b⟩
  · intro s xi yi hxi
    obtain ⟨t, hexec, hflag, hsum, -⟩ := addWritesSumThenCarry s xi yi
    refine ⟨t, hexec, hsum hxi, ?_⟩
    rw [hflag]
    split
    case isTrue hover => exact ⟨iff_of_true rfl hover, fun hne => absurd rfl hne⟩
    case isFalse hfits => exact ⟨iff_of_false (by decide) hfits, fun _ => rfl⟩

/-- Settles O17: neither operand reads the flag, and ADD's own write of it covers the old value. -/
theorem addIgnoresTheOldFlag : Obligations.AddIgnoresTheOldFlag := by
  intro s xi yi v hxi hyi
  rw [exec_add, exec_add, readReg_writeReg_other hxi, readReg_writeReg_other hyi,
    writeCarry_writeReg_writeReg_flag hxi]

end Sys2Proof.Machine
end

/-! # CALL, RET and the call stack (spec 43_subroutine_call_return.md)

The two handlers, a CALL with the RET at its target, the stack as a last-in-first-out store along a run, and the entries at
or above `sp`, which no step reads. -/

section
namespace Sys2Proof.Machine

/-! ## Entries at or above `sp` (R58, U13) -/

/-- Two states that agree up to stale entries are one state with two stacks. -/
theorem State.agreeUpToStale_iff {s t : State} :
    s.agreeUpToStale t ↔
      t = { s with stack := t.stack } ∧ ∀ i : Fin 16, i.val < s.sp.val → s.stack[i.val] = t.stack[i.val] := by
  constructor
  · rintro ⟨hx, hpc, hsp, hmem, hstatus, hkind, hword, hlive⟩
    exact ⟨by rw [hx, hpc, hsp, hmem, hstatus, hkind, hword], hlive⟩
  · rintro ⟨ht, hlive⟩
    rw [ht]
    exact ⟨rfl, rfl, rfl, rfl, rfl, rfl, rfl, hlive⟩

/-- Every outcome reads at most the top live entry, so another stack with the same live entries gives the same outcome;
a CALL writes the same entry of both. -/
theorem StepOutcome.with_stack {s s' : State} {k : Vector Word 16}
    (hlive : ∀ i : Fin 16, i.val < s.sp.val → s.stack[i.val] = k[i.val]) (h : StepOutcome s s') :
    ∃ k', StepOutcome { s with stack := k } { s' with stack := k' } ∧
      ∀ i : Fin 16, i.val < s'.sp.val → s'.stack[i.val] = k'[i.val] := by
  cases h with
  | fetchFault hf => exact ⟨k, .fetchFault hf, hlive⟩
  | unimplemented hf hd => exact ⟨k, .unimplemented hf hd, hlive⟩
  | halt hf hd => exact ⟨k, .halt hf hd, hlive⟩
  | add hf hd => exact ⟨k, .add hf hd, hlive⟩
  | callFull hf hd hfull => exact ⟨k, .callFull hf hd hfull, hlive⟩
  | retEmpty hf hd hempty => exact ⟨k, .retEmpty hf hd hempty, hlive⟩
  | call hf hd hroom =>
    refine ⟨k.set s.sp.val (s.pc + 2) hroom, .call (s := { s with stack := k }) hf hd hroom, fun i hi => ?_⟩
    have hle : i.val < s.sp.val + 1 := hi
    simp only [Vector.getElem_set]
    split
    · rfl
    · exact hlive i (by omega)
  | ret hf hd hne =>
    have htop : s.stack[s.sp.val - 1] = k[s.sp.val - 1] :=
      hlive ⟨s.sp.val - 1, by omega⟩ (Nat.sub_one_lt hne)
    refine ⟨k, ?_, fun i hi => hlive i (Nat.lt_of_lt_pred hi)⟩
    rw [htop]
    exact .ret (s := { s with stack := k }) hf hd hne

theorem step_keeps_agreeUpToStale {s s' t : State} (hagree : s.agreeUpToStale t) (h : step s = .next s') :
    ∃ t', step t = .next t' ∧ s'.agreeUpToStale t' := by
  obtain ⟨ht, hlive⟩ := State.agreeUpToStale_iff.1 hagree
  obtain ⟨k', hout, hlive'⟩ := (stepOutcome_of_step h).with_stack hlive
  rw [ht]
  exact ⟨_, hout.step_eq (step_cases h).1, State.agreeUpToStale_iff.2 ⟨rfl, hlive'⟩⟩

/-- Settles O37, by induction on the number of steps: the two states step together, or neither has a step. -/
theorem staleStackEntriesAreUnobservable : Obligations.StaleStackEntriesAreUnobservable := by
  intro n
  induction n with
  | zero => exact fun s t hagree => hagree
  | succ n ih =>
    intro s t hagree
    by_cases hrun : s.status = .running
    · obtain ⟨s', hs⟩ := exists_step_of_running hrun
      obtain ⟨t', ht, hagree'⟩ := step_keeps_agreeUpToStale hagree hs
      rw [run_of_next hs, run_of_next ht]
      exact ih s' t' hagree'
    · have hended : t.ended := by
        obtain ⟨-, -, -, -, hstatus, -⟩ := hagree
        exact fun ht => hrun (hstatus.trans ht)
      rw [run_of_ended hrun, run_of_ended hended]
      exact hagree

/-! ## The handlers (R56, R57) -/

/-- Settles O18: the state the handler answers with room on the stack, field by field. -/
theorem callPushesAndJumps : Obligations.CallPushesAndJumps := by
  intro s nnn hroom
  refine ⟨_, execCall_of_room nnn hroom, Vector.getElem_set_self hroom, rfl, addrOperand_toNat nnn,
    fun i hi => ?other, fun _ => rfl, fun _ => rfl, rfl, rfl, rfl⟩
  case other => exact Vector.getElem_set_ne hroom _ (Ne.symm hi)

theorem fieldNnn_encode_call (nnn : Target) : fieldNnn (encode (.call nnn)) = nnn := by
  apply BitVec.eq_of_toNat_eq
  have := nnn.isLt
  rw [fieldNnn_toNat, encode_call_toNat]
  omega

theorem decodeWord_encode_call (nnn : Target) : decodeWord (encode (.call nnn)) = .ok (.call nnn) := by
  have hrow : (Instr.call nnn).row.matchesWord (encode (.call nnn)) = true := Laws.EncodeMatchesRow.call nnn
  rw [decodeWord_of_row_matches hrow, Instr.withFields, fieldNnn_encode_call]

/-- Settles O19: the handler on a full stack is the raise alone, and the step runs it on the advanced state. -/
theorem callOnFullStackFaults : Obligations.CallOnFullStackFaults := by
  intro s nnn hfull
  constructor
  · exact ⟨_, execCall_of_full nnn hfull, rfl⟩
  · intro hrun hf
    exact (StepOutcome.callFull hf (decodeWord_encode_call nnn) hfull).step_eq hrun

/-- Settles O20: the handler's two equations, field by field. -/
theorem retPopsAndJumps : Obligations.RetPopsAndJumps := by
  constructor
  · intro s hlive
    exact ⟨_, execRet_of_nonempty hlive, rfl, rfl, rfl, fun _ => rfl, fun _ => rfl, rfl, rfl, rfl⟩
  · intro s hempty
    exact ⟨_, execRet_of_empty hempty, rfl, rfl, rfl, rfl, rfl, fun _ => rfl, fun _ => rfl⟩

/-! ## A CALL and the RET at its target (R59) -/

/-- The two steps together: `pc` stands past the CALL and the return address is left in the slot; nothing else changes. -/
theorem step_call_then_ret {s : State} {iw : Word} {nnn : Target} (hrun : s.status = .running)
    (hf : fetchWord s = some iw) (hd : decodeWord iw = .ok (.call nnn)) (hroom : s.sp.val < 16)
    (hin : nnn.toNat ≤ 4094) (hhi : s.mem.read nnn.toNat = 0x00) (hlo : s.mem.read (nnn.toNat + 1) = 0xEE) :
    ∃ t, step s = .next t ∧
      step t = .next { s with stack := s.stack.set s.sp.val (s.pc + 2) hroom, pc := s.pc + 2 } := by
  obtain ⟨t, ht, htrun, htpc⟩ := step_of_call hrun hf hd hroom
  have hret : fetchWord t = some 0x00EE := by
    rw [fetchWord_of_inside (by omega), htpc, step_mem ht, hhi, hlo]
    rfl
  obtain rfl := (StepOutcome.call hf hd hroom).eq_of_step ht
  exact ⟨_, ht, by simpa using (StepOutcome.ret hret rfl (Nat.succ_ne_zero _)).step_eq htrun⟩

/-- Settles O22: the state after the two steps, field by field. -/
theorem callThenRetComesBack : Obligations.CallThenRetComesBack := by
  intro s nnn hroom hrun hf hin hhi hlo
  obtain ⟨t, ht, hu⟩ := step_call_then_ret hrun hf (decodeWord_encode_call nnn) hroom hin hhi hlo
  refine ⟨t, _, ht, hu, rfl, (pc_add_two_toNat hf).2, rfl, fun _ => rfl, fun i hi => ?below,
    Vector.getElem_set_self hroom, fun _ => rfl, hrun⟩
  case below => exact Vector.getElem_set_ne hroom _ (Nat.ne_of_gt hi)

/-! ## Last in, first out (R58, R59) -/

/-- A step that ends with more entries than it began with is a CALL that went through. -/
theorem stack_of_step_deeper {s t : State} (h : step s = .next t) (hdeeper : s.sp.val < t.sp.val) :
    ∃ hroom : s.sp.val < 16, t.stack = s.stack.set s.sp.val (s.pc + 2) hroom := by
  cases stackMove_of_step h with
  | none _ hsp => exact absurd (congrArg Fin.val hsp) (Nat.ne_of_gt hdeeper)
  | call _ _ hroom hstack => exact ⟨hroom, hstack⟩
  | ret _ _ _ _ hsp => omega

/-- A step that ends with fewer entries than it began with is a RET that went through. -/
theorem eq_popped_of_step_shallower {s t : State} (h : step s = .next t) (hshallower : t.sp.val < s.sp.val) :
    ∃ _ : s.sp.val ≠ 0, t = { s with sp := ⟨s.sp.val - 1, by omega⟩, pc := s.stack[s.sp.val - 1] } := by
  cases stackMove_of_step h with
  | none _ hsp => exact absurd (congrArg Fin.val hsp) (Nat.ne_of_lt hshallower)
  | call _ _ _ _ hsp => omega
  | ret hf hd hlive => exact ⟨hlive, (StepOutcome.ret hf hd hlive).eq_of_step h⟩

/-- No step writes a live entry. -/
theorem step_keeps_live_entry {s t : State} (h : step s = .next t) (i : Fin 16) (hi : i.val < s.sp.val) :
    t.stack[i.val] = s.stack[i.val] := by
  by_contra hne
  obtain ⟨_, _, _, _, hslot, -⟩ := onlyCallWritesTheStack s t i h hne
  omega

/-- While a run keeps an entry live, it keeps its value. -/
theorem run_keeps_live_entry {n : Nat} {t : State} (i : Fin 16) (hlive : ∀ m, m < n → i.val < (run m t).sp.val) :
    (run n t).stack[i.val] = t.stack[i.val] := by
  induction n with
  | zero => rfl
  | succ n ih =>
    have hkept := ih fun m hm => hlive m (Nat.lt_succ_of_lt hm)
    by_cases hrun : (run n t).status = .running
    · obtain ⟨u, hu⟩ := exists_step_of_running hrun
      rw [run_succ_of_next hu, ← hkept]
      exact step_keeps_live_entry hu i (hlive n (Nat.lt_succ_self n))
    · rw [run_add n 1 t, run_of_ended hrun]
      exact hkept

/-- Settles O23: the CALL sets the entry at its depth, the `n` steps above it keep every entry up to that one, and the step
back to the depth is a RET that loads it. -/
theorem balancedSubroutineComesBack : Obligations.BalancedSubroutineComesBack := by
  intro s t u iw nnn n _ _ hst habove hu hback
  obtain ⟨hroom, hpushed⟩ := stack_of_step_deeper hst (habove 0 (Nat.zero_le n))
  have hkept (i : Fin 16) (hi : i.val ≤ s.sp.val) : (run n t).stack[i.val] = t.stack[i.val] :=
    run_keeps_live_entry i fun m hm => Nat.lt_of_le_of_lt hi (habove m (Nat.le_of_lt hm))
  obtain ⟨hne, hpopped⟩ := eq_popped_of_step_shallower hu (hback.trans_lt (habove n (Nat.le_refl n)))
  have htop : (run n t).sp.val - 1 = s.sp.val := by rw [← hback, hpopped]
  rw [hpopped]
  refine ⟨?pc, (step_cases hu).1, fun i hi => ?below⟩
  case pc =>
    calc (run n t).stack[(run n t).sp.val - 1]
        = (run n t).stack[s.sp.val] := by simp only [htop]
      _ = t.stack[s.sp.val] := hkept ⟨s.sp.val, hroom⟩ (Nat.le_refl _)
      _ = s.pc + 2 := by simp only [hpushed, Vector.getElem_set_self]
  case below =>
    calc (run n t).stack[i.val]
        = t.stack[i.val] := hkept i (Nat.le_of_lt hi)
      _ = s.stack[i.val] := step_keeps_live_entry hst i hi

end Sys2Proof.Machine
end

/-! # Faults and ended runs (spec 60_exceptions.md)

What a fault leaves unchanged, the cause of each of the four kinds, and that nothing follows the end of a run. -/

section
namespace Sys2Proof.Machine

/-! ## Taking a fault (R63, R65) -/

@[simp] theorem readReg_raise (k : FaultKind) (w : Word) (s : State) (i : RegIdx) :
    readReg (raise k w s) i = readReg s i := rfl

/-- Settles O21: the outcome of a RET on an empty stack is the raise alone, on the advanced state. -/
theorem retOnEmptyStackFaults : Obligations.RetOnEmptyStackFaults :=
  fun _ hrun hf hempty => (StepOutcome.retEmpty hf rfl hempty).step_eq hrun

/-- Settles O32: every outcome that ends FAULTED is a raise, on the state as it was where the fetch faulted and on the
advanced state elsewhere. -/
theorem faultsArePrecise : Obligations.FaultsArePrecise := by
  intro s t h hfaulted
  have hrun := (step_cases h).1
  cases stepOutcome_of_step h with
  | fetchFault => simp
  | unimplemented hf => simp [hf]
  | callFull | retEmpty => simp
  | halt => cases hfaulted
  | add | call | ret => cases hrun.symm.trans hfaulted

/-! ## The cause of each fault (R60, R67) -/

/-- The condition under which the step of a RUNNING state raises a fault of the kind. -/
def State.causes (s : State) : FaultKind → Prop
  | .none => False
  | .outOfBoundsFetch => fetchWord s = none
  | .unimplementedInstruction => ∃ iw, fetchWord s = some iw ∧ decodeWord iw = .error (.unimplemented iw)
  | .stackOverflow => ∃ iw, fetchWord s = some iw ∧ (∃ nnn, decodeWord iw = .ok (.call nnn)) ∧ s.sp.val = 16
  | .stackUnderflow => ∃ iw, fetchWord s = some iw ∧ decodeWord iw = .ok .ret ∧ s.sp.val = 0

theorem step_raises_iff_causes {s t : State} (h : step s = .next t) (kind : FaultKind) :
    t.status = .faulted ∧ t.faultKind = kind ↔ s.causes kind := by
  constructor
  · rintro ⟨hfaulted, rfl⟩
    have hrun := (step_cases h).1
    cases stepOutcome_of_step h with
    | fetchFault hf => exact hf
    | unimplemented hf hd => exact ⟨_, hf, hd⟩
    | callFull hf hd hfull => exact ⟨_, hf, ⟨_, hd⟩, hfull⟩
    | retEmpty hf hd hempty => exact ⟨_, hf, hd, hempty⟩
    | halt => cases hfaulted
    | add | call | ret => cases hrun.symm.trans hfaulted
  · intro hcause
    cases kind with
    | none => exact hcause.elim
    | outOfBoundsFetch =>
      rw [(StepOutcome.fetchFault hcause).eq_of_step h]
      exact ⟨rfl, rfl⟩
    | unimplementedInstruction =>
      obtain ⟨iw, hf, hd⟩ := hcause
      rw [(StepOutcome.unimplemented hf hd).eq_of_step h]
      exact ⟨rfl, rfl⟩
    | stackOverflow =>
      obtain ⟨iw, hf, ⟨nnn, hd⟩, hfull⟩ := hcause
      rw [(StepOutcome.callFull hf hd hfull).eq_of_step h]
      exact ⟨rfl, rfl⟩
    | stackUnderflow =>
      obtain ⟨iw, hf, hd, hempty⟩ := hcause
      rw [(StepOutcome.retEmpty hf hd hempty).eq_of_step h]
      exact ⟨rfl, rfl⟩

theorem fetchWord_eq_none_iff {s : State} : fetchWord s = none ↔ 4095 ≤ s.pc.toNat :=
  ⟨fetchWord_eq_none, fetchWord_of_outside⟩

theorem exists_decodeWord_eq_call_iff {iw : Word} :
    (∃ nnn, decodeWord iw = .ok (.call nnn)) ↔ iw &&& 0xF000 = 0x2000 := by
  obtain ⟨-, -, hcall, -⟩ := dispatchFollowsTheOpcodeMap.1 iw
  simp [hcall]

theorem decodeWord_eq_ret_iff {iw : Word} : decodeWord iw = .ok .ret ↔ iw = 0x00EE := by
  have hall : iw &&& 0xFFFF = iw := BitVec.and_allOnes
  obtain ⟨-, hret, -⟩ := dispatchFollowsTheOpcodeMap.1 iw
  rw [hret, hall]

/-- Settles O33: a step raises a kind exactly where its cause holds, and each cause, by the fetch bound and the opcode map,
is the condition stated. -/
theorem eachFaultHasItsCause : Obligations.EachFaultHasItsCause := by
  intro s t h
  refine ⟨(step_raises_iff_causes h _).trans fetchWord_eq_none_iff, (step_raises_iff_causes h _).trans ?unimplemented,
    (step_raises_iff_causes h _).trans ?overflow, (step_raises_iff_causes h _).trans ?underflow⟩
  case unimplemented => simp only [State.causes, decodeWord_eq_unimplemented_iff]
  case overflow => simp only [State.causes, exists_decodeWord_eq_call_iff]
  case underflow => simp [State.causes, decodeWord_eq_ret_iff]

/-! ## The end of a run (R66, R75) -/

theorem step_ne_next_of_ended {s : State} (hend : s.ended) (t : State) : step s ≠ .next t :=
  fun ht => hend (step_cases ht).1

/-- Settles O36: the further steps are a run from the ended state, which stays. -/
theorem endedRunsStayEnded : Obligations.EndedRunsStayEnded := by
  intro s n hend
  refine ⟨fun m => ?_, step_ne_next_of_ended hend, rfl⟩
  rw [run_add, run_of_ended hend]

end Sys2Proof.Machine
end

/-! # Reset, launch and the host's moves (spec 70_reset_and_hazards.md)

Which states are launch states, what a seeding command does there, that no step comes back to one, and the read-out. -/

section
namespace Sys2Proof.Machine

/-! ## Launch states (R74) -/

theorem atLaunch_iff {s : State} : atLaunch s = true ↔ ∃ x m, s = launch x m := by
  constructor
  · exact fun h => ⟨s.x, s.mem, of_decide_eq_true h⟩
  · rintro ⟨x, m, rfl⟩
    exact decide_eq_true rfl

@[simp] theorem atLaunch_launch (x : Vector Byte 16) (m : Memory) : atLaunch (launch x m) = true :=
  atLaunch_iff.2 ⟨x, m, rfl⟩

/-- Settles O26: the invariants of a launch state, at each seeded content. -/
theorem launchMeetsTheInvariant : Obligations.LaunchMeetsTheInvariant :=
  fun x _ hm => launch_inv x hm

/-- Settles O39: the fields of a launch state, and its fetch at `pc` 0, inside the bound. -/
theorem launchStartsAtAddressZero : Obligations.LaunchStartsAtAddressZero := by
  refine ⟨fun _ => rfl, rfl, fun x m => ?_⟩
  have hfetch : fetchWord (launch x m) = some (joinBytes (m.read 0) (m.read 1)) :=
    fetchWord_of_inside (s := launch x m) (Nat.zero_le 4094)
  exact ⟨rfl, rfl, rfl, rfl, fun i => by simp, rfl, rfl, rfl, atLaunch_launch x m, hfetch⟩

/-! ## Seeding (R73) -/

theorem seed_of_accepted {c : Seed} {s : State} (hlaunch : atLaunch s = true) (hc : c.wellFormed = true) :
    seed c s = .next (applySeed c s) := by
  simp [seed, hlaunch, hc]

theorem seed_of_not_atLaunch (c : Seed) {s : State} (h : atLaunch s = false) :
    seed c s = .refused .hostMoveOutsideSeeding := by
  simp [seed, h]

theorem seed_of_illFormed {c : Seed} {s : State} (hlaunch : atLaunch s = true) (hc : c.wellFormed = false) :
    seed c s = .refused .seedOutOfRange := by
  simp [seed, hlaunch, hc]

theorem Seed.wellFormed_mem_iff {addr : Nat} {bytes : List Byte} :
    (Seed.mem addr bytes).wellFormed = true ↔ addr + bytes.length ≤ 4096 := by
  simp [Seed.wellFormed]

/-- A seeded launch state is the launch state of what was seeded, so it can be seeded further. -/
theorem applySeed_keeps_atLaunch (c : Seed) {s : State} (h : atLaunch s = true) : atLaunch (applySeed c s) = true := by
  obtain ⟨x, m, rfl⟩ := atLaunch_iff.1 h
  cases c with
  | mem addr bytes => exact atLaunch_launch x (m.writeBlock addr bytes)
  | reg i v => exact atLaunch_launch (x.set i.val v i.isLt) m

theorem Memory.read_writeBlock_inside {m : Memory} (h : m.wf) {a : Nat} {bs : List Byte}
    (ha : a + bs.length ≤ Config.memSize) {k : Nat} (hk : k < bs.length) : (m.writeBlock a bs).read (a + k) = bs[k] := by
  rw [Memory.read_writeBlock h ha, dif_pos ⟨Nat.le_add_right a k, by omega⟩]
  simp only [Nat.add_sub_cancel_left]

theorem Memory.read_writeBlock_outside {m : Memory} (h : m.wf) {a b : Nat} {bs : List Byte}
    (ha : a + bs.length ≤ Config.memSize) (hb : b < a ∨ a + bs.length ≤ b) : (m.writeBlock a bs).read b = m.read b := by
  rw [Memory.read_writeBlock h ha, dif_neg (by omega)]

/-- Settles O40: the command is accepted, and what it leaves follows from the laws of the block write and the register
write. -/
theorem seedingWritesWhatTheHostSays : Obligations.SeedingWritesWhatTheHostSays := by
  constructor
  · intro s addr bytes hlaunch hwf hend
    exact ⟨_, seed_of_accepted hlaunch (Seed.wellFormed_mem_iff.2 hend),
      fun _ hk => Memory.read_writeBlock_inside hwf hend hk,
      fun _ ha => Memory.read_writeBlock_outside hwf hend ha,
      rfl, Memory.writeBlock_keeps_wf hwf hend, applySeed_keeps_atLaunch _ hlaunch⟩
  · intro s i v hlaunch
    exact ⟨_, seed_of_accepted hlaunch rfl, readReg_writeReg_same i v s, fun _ hr => readReg_writeReg_other hr v s,
      rfl, applySeed_keeps_atLaunch _ hlaunch⟩

/-! ## No seeding during or after the run (R73, R74) -/

/-- No step leads to a launch state. Of the outcomes that go on RUNNING, ADD leaves `pc` past itself and CALL an entry on
the stack; RET loads a live entry, which is no 0 because it follows a CALL. -/
theorem step_not_atLaunch {s t : State} (hlive : s.liveEntriesFollowCalls) (h : step s = .next t) :
    atLaunch t = false := by
  by_contra hlaunch
  obtain ⟨x, m, ht⟩ := atLaunch_iff.1 (Bool.eq_true_of_not_eq_false hlaunch)
  have hstatus : t.status = .running := by rw [ht, launch_status]
  have hpc : t.pc.toNat = 0 := by rw [ht, launch_pc]; rfl
  have hsp : t.sp.val = 0 := by rw [ht, launch_sp]; rfl
  cases stepOutcome_of_step h with
  | fetchFault | unimplemented | halt | callFull | retEmpty => cases hstatus
  | add hf =>
    obtain ⟨-, hnext⟩ := pc_add_two_toNat hf
    exact absurd (hnext.symm.trans hpc) (Nat.succ_ne_zero _)
  | call => exact absurd hsp (Nat.succ_ne_zero _)
  | ret _ _ hne =>
    obtain ⟨hlow, -⟩ := hlive ⟨s.sp.val - 1, by omega⟩ (Nat.sub_one_lt hne)
    exact absurd (hlow.trans_eq hpc) (by decide)

/-- Settles O41: no step leads back to a launch state, and a block that leaves memory is ill formed. -/
theorem hostHasNoMoveDuringTheRun : Obligations.HostHasNoMoveDuringTheRun := by
  constructor
  · rintro s t c ⟨-, hlive, -⟩ h
    exact seed_of_not_atLaunch c (step_not_atLaunch hlive h)
  · intro s addr bytes hlaunch hend
    have hill : (Seed.mem addr bytes).wellFormed = false :=
      Bool.eq_false_of_not_eq_true (mt Seed.wellFormed_mem_iff.1 (Nat.not_le.2 hend))
    exact seed_of_illFormed hlaunch hill

/-! ## The read-out (R79) -/

theorem readOut_of_running {s : State} (h : s.status = .running) : readOut s = none := if_pos h

theorem readOut_of_ended {s : State} (h : s.ended) :
    readOut s = some ⟨s.x, s.pc, s.sp, s.stack, s.status, s.faultKind, s.faultWord⟩ := if_neg h

/-- Settles O42: the read-out's two equations, field by field. -/
theorem readOutShowsTheEndedState : Obligations.ReadOutShowsTheEndedState :=
  fun _ => ⟨readOut_of_running, fun hend => ⟨_, readOut_of_ended hend, rfl, rfl, rfl, rfl, rfl, rfl, rfl⟩⟩

end Sys2Proof.Machine
end

/-! # Encoding and decoding are inverse (spec 30_encoding.md)

The word of an instruction is of the instruction's own row and holds its operands in the fields; a word of a row is the one
that the row's instruction encodes to. The rest is the decoder's characterisation by rows and fields
(`decodeWord_eq_ok_iff`). -/

section
namespace Sys2Proof

/-! ## Decoding an encoding (R36, R38) -/

theorem row_matches_encode (i : Instr) : i.row.matchesWord (encode i) = true := by
  cases i with
  | halt => exact Laws.EncodeMatchesRow.halt
  | ret => exact Laws.EncodeMatchesRow.ret
  | call nnn => exact Laws.EncodeMatchesRow.call nnn
  | add xi yi => exact Laws.EncodeMatchesRow.add xi yi

theorem fieldXi_encode_add (xi yi : RegIdx) : fieldXi (encode (.add xi yi)) = xi := by
  apply Fin.ext
  rw [fieldXi_val, encode_add_toNat]
  omega

theorem fieldYi_encode_add (xi yi : RegIdx) : fieldYi (encode (.add xi yi)) = yi := by
  apply Fin.ext
  rw [fieldYi_val, encode_add_toNat]
  omega

theorem withFields_encode (i : Instr) : i.withFields (encode i) = i := by
  cases i with
  | halt | ret => rfl
  | call nnn => rw [Instr.withFields, Machine.fieldNnn_encode_call]
  | add xi yi => rw [Instr.withFields, fieldXi_encode_add, fieldYi_encode_add]

theorem decodeWord_encode (i : Instr) : decodeWord (encode i) = .ok i :=
  decodeWord_eq_ok_iff.2 ⟨row_matches_encode i, (withFields_encode i).symm⟩

theorem decodeBytes_wordBytes_append (w : Word) (rest : List Byte) :
    decodeBytes (wordBytes w ++ rest) = (decodeWord w).map fun i => (i, rest) := by
  simp [wordBytes, decodeBytes]

/-- Settles O2: the two bytes join to the encoded word, whose row and fields are the instruction's. -/
theorem decodeOfEncodeIsTheInstruction : Obligations.DecodeOfEncodeIsTheInstruction := by
  intro i rest
  rw [decodeBytes_wordBytes_append, decodeWord_encode]
  rfl

/-! ## Encoding a decoding (R38) -/

/-- The mask of a row and the fields of its operands cover the word. -/
theorem encode_withFields_of_row_matches {iw : Word} {i : Instr} (h : i.row.matchesWord iw = true) :
    encode (i.withFields iw) = iw := by
  apply BitVec.eq_of_toNat_eq
  cases i with
  | halt => exact ((rowHalt_matches iw).1 h).symm
  | ret => exact ((rowRet_matches iw).1 h).symm
  | call nnn =>
    have hgroup := (rowCall_matches iw).1 h
    rw [Instr.withFields, encode_call_toNat, fieldNnn_toNat]
    omega
  | add xi yi =>
    obtain ⟨hgroup, hsub⟩ := (rowAdd_matches iw).1 h
    rw [Instr.withFields, encode_add_toNat, fieldXi_val, fieldYi_val]
    omega

/-- Settles O3: the decoded instruction has the word's row and fields, and these determine the word. -/
theorem encodeOfDecodeIsTheWord : Obligations.EncodeOfDecodeIsTheWord := by
  intro iw i hd
  obtain ⟨hmatch, hfields⟩ := decodeWord_eq_ok_iff.1 hd
  rw [hfields, encode_withFields_of_row_matches hmatch]

/-! ## The spec's own words -/

/-- Settles O1: seven of the words are encodings, and the other three match no row of the opcode map. -/
theorem specWordsDecodeAsListed : Obligations.SpecWordsDecodeAsListed :=
  ⟨decodeWord_encode .halt, decodeWord_encode .ret, decodeWord_encode (.call 0x100),
    decodeWord_encode (.call 0xFFF), decodeWord_encode (.call 0x0EE), decodeWord_encode (.add 0 1),
    decodeWord_encode (.add 15 15), decodeWord_eq_unimplemented_iff.2 (by decide),
    decodeWord_eq_unimplemented_iff.2 (by decide), decodeWord_eq_unimplemented_iff.2 (by decide)⟩

end Sys2Proof
end
